-- ==== Sys2Proof/Word.lean ====
section
/-!
DEFINITION. The word types of CKFS (00_scope.md R9, R10): every value is unsigned.
-/

namespace Sys2Proof

/-- An octet, the same thing as a byte (R10). -/
abbrev Byte := BitVec 8

/-- A `u16`: a parameter register, a checksum word, a length field, the data of a response (R9). -/
abbrev Half := BitVec 16

/-- A command word or a response word (R9): a number of 32 bits, with no byte order (R54). -/
abbrev Word := BitVec 32

end Sys2Proof
end

