-- ==== Sys2Proof/Syntax.lean ====
section
/-!
DEFINITION. The command set of CKFS: one constructor for each of the eleven rows of spec/opcode_table.json
(30_encoding.md R74). An operand has the width of its field (R73, R77), so every term of this type is a command.
-/

namespace Sys2Proof

/-- The eleven commands of R74. -/
inductive Instr where
  /-- `WRP reg, imm16`: write a parameter register (R150). -/
  | wrp (reg : Byte) (imm16 : Half)
  /-- `RDP reg`: read a register (R151). -/
  | rdp (reg : Byte)
  /-- `DCLR`: empty the data-in buffer (R152). -/
  | dclr
  /-- `DPUSH imm8`: append one octet (R153). -/
  | dpush (imm8 : Byte)
  /-- `DPUSH2 imm16`: append two octets, the most significant first (R154). -/
  | dpush2 (imm16 : Half)
  /-- `DZERO imm16`: append `imm16` octets of 0x00 (R155). -/
  | dzero (imm16 : Half)
  /-- `RDO imm16`: read one octet of the output buffer (R156). -/
  | rdo (imm16 : Half)
  /-- `CKSUM`: checksum of the data-in buffer (R102). -/
  | cksum
  /-- `BLD.OUTER imm16`: build an outer header for `imm16` following octets (R122). -/
  | bldOuter (imm16 : Half)
  /-- `BLD.INNER`: build inner header and payload (R125). -/
  | bldInner
  /-- `BLD.FRAME`: build a frame (R141). -/
  | bldFrame
deriving DecidableEq, Repr

end Sys2Proof
end

