-- ==== Sys2Proof/Decode.lean ====
section
/-!
DEFINITION. Decoding and encoding of command words (30_encoding.md R73 to R80). Decoding is total on the 2^32 words and
depends on the word alone (R75); there is one length (R80). `rows` is the table of R74 with its match and mask columns,
a second transcription of the encoding beside the decoder's formats.
-/

namespace Sys2Proof

/-- Why a word is illegal: the two kinds of R78. Both have the same effect, error `E_OPCODE`. -/
inductive Illegal where
  /-- `op` is not one of 0x01 to 0x07, 0x10, 0x20, 0x21, 0x22. -/
  | unknownOpcode
  /-- `op` is in the list, and a must-be-zero field of its format holds a 1. -/
  | mustBeZero
deriving DecidableEq, Repr

/-- What a word decodes to (R75): exactly one command, or illegal. -/
inductive Decoded where
  | command (i : Instr)
  | illegal (why : Illegal)
deriving DecidableEq, Repr

/-- `op = w[31:24]` (R73). -/
def opField (w : Word) : Byte := w.extractLsb' 24 8

/-- `reg = w[23:16]` (R77). -/
def regField (w : Word) : Byte := w.extractLsb' 16 8

/-- `imm16 = w[15:0]` (R77). -/
def imm16Field (w : Word) : Half := w.extractLsb' 0 16

/-- `imm8 = w[7:0]` (R77). -/
def imm8Field (w : Word) : Byte := w.extractLsb' 0 8

/-- Bits `23:8`, which must be 0 in format B (R73). -/
def middleField (w : Word) : Half := w.extractLsb' 8 16

/-- Bits `23:0`, which must be 0 in format Z (R73). -/
def lowField (w : Word) : BitVec 24 := w.extractLsb' 0 24

/-- The command, if the must-be-zero field holds no 1 (R73, R75). -/
def ifZero {n : Nat} (mbz : BitVec n) (i : Instr) : Decoded :=
  if mbz = 0 then .command i else .illegal .mustBeZero

/-- R75: take `op`, find its row, check the must-be-zero fields of its format (R73), extract the operand fields
(R77). -/
def decode (w : Word) : Decoded :=
  if opField w = 0x01 then .command (.wrp (regField w) (imm16Field w))
  else if opField w = 0x02 then ifZero (imm16Field w) (.rdp (regField w))
  else if opField w = 0x03 then ifZero (lowField w) .dclr
  else if opField w = 0x04 then ifZero (middleField w) (.dpush (imm8Field w))
  else if opField w = 0x05 then ifZero (regField w) (.dpush2 (imm16Field w))
  else if opField w = 0x06 then ifZero (regField w) (.dzero (imm16Field w))
  else if opField w = 0x07 then ifZero (regField w) (.rdo (imm16Field w))
  else if opField w = 0x10 then ifZero (lowField w) .cksum
  else if opField w = 0x20 then ifZero (regField w) (.bldOuter (imm16Field w))
  else if opField w = 0x21 then ifZero (lowField w) .bldInner
  else if opField w = 0x22 then ifZero (lowField w) .bldFrame
  else .illegal .unknownOpcode

/-- The words of the command table (R73, R74), one format after the other: op, then the fields from the most
significant down. -/
def encode : Instr → Word
  | .wrp reg imm16 => (0x01 : Byte) ++ reg ++ imm16
  | .rdp reg => (0x02 : Byte) ++ reg ++ (0 : Half)
  | .dclr => (0x03 : Byte) ++ (0 : BitVec 24)
  | .dpush imm8 => (0x04 : Byte) ++ (0 : Half) ++ imm8
  | .dpush2 imm16 => (0x05 : Byte) ++ (0 : Byte) ++ imm16
  | .dzero imm16 => (0x06 : Byte) ++ (0 : Byte) ++ imm16
  | .rdo imm16 => (0x07 : Byte) ++ (0 : Byte) ++ imm16
  | .cksum => (0x10 : Byte) ++ (0 : BitVec 24)
  | .bldOuter imm16 => (0x20 : Byte) ++ (0 : Byte) ++ imm16
  | .bldInner => (0x21 : Byte) ++ (0 : BitVec 24)
  | .bldFrame => (0x22 : Byte) ++ (0 : BitVec 24)

/-- The command's mnemonic (R74, R85). -/
def Instr.mnemonic : Instr → String
  | .wrp _ _ => "WRP"
  | .rdp _ => "RDP"
  | .dclr => "DCLR"
  | .dpush _ => "DPUSH"
  | .dpush2 _ => "DPUSH2"
  | .dzero _ => "DZERO"
  | .rdo _ => "RDO"
  | .cksum => "CKSUM"
  | .bldOuter _ => "BLD.OUTER"
  | .bldInner => "BLD.INNER"
  | .bldFrame => "BLD.FRAME"

/-- A row of the table of R74, with its match and mask columns. -/
structure Row where
  mnemonic : String
  pattern : Word
  mask : Word
deriving DecidableEq, Repr

/-- "a word `w` is the command of a row exactly when `(w & mask) = match`" (R74). -/
abbrev Row.Matches (r : Row) (w : Word) : Prop := w &&& r.mask = r.pattern

/-- The eleven rows of R74. -/
def rows : List Row :=
  [⟨"WRP", 0x01000000, 0xFF000000⟩, ⟨"RDP", 0x02000000, 0xFF00FFFF⟩, ⟨"DCLR", 0x03000000, 0xFFFFFFFF⟩,
    ⟨"DPUSH", 0x04000000, 0xFFFFFF00⟩, ⟨"DPUSH2", 0x05000000, 0xFFFF0000⟩, ⟨"DZERO", 0x06000000, 0xFFFF0000⟩,
    ⟨"RDO", 0x07000000, 0xFFFF0000⟩, ⟨"CKSUM", 0x10000000, 0xFFFFFFFF⟩, ⟨"BLD.OUTER", 0x20000000, 0xFFFF0000⟩,
    ⟨"BLD.INNER", 0x21000000, 0xFFFFFFFF⟩, ⟨"BLD.FRAME", 0x22000000, 0xFFFFFFFF⟩]

/-- The command that the decoder reads from a word numbered as spec/opcode_table.json numbers it. A command word is a
number with no byte order (R54), so the table's bit numbers are the word's own (log 15). -/
def decodeTableWord (nbits w : Nat) : Option Instr :=
  match decode (BitVec.ofNat 32 (w % 2 ^ nbits)) with
  | .command i => some i
  | .illegal _ => none

end Sys2Proof
end

