-- ==== Sys2Proof/Config.lean ====
section
/-!
DEFINITION. What an instance of CKFS fixes: the implementation parameters of 00_scope.md R8 and the names of the
registers (10_state.md R21). LAT, the one OPEN parameter of R8, is no number here: it is free for every command
(`Edge.stall` in Machine/State.lean, log 3).
-/

namespace Sys2Proof

/-- The parameters of R8, kept as parameters (D9, D10, D11). A machine carries them as a constant of its state that no
step writes (DESIGN CHOICE, safe, log 2), so that a claim about every state is a claim about every instance. -/
structure Params where
  /-- `PMAX`: capacity of the data-in buffer in octets; the output buffer holds `PMAX + 28`. -/
  pmax : Nat
  /-- `ODD_PAD`: true = zero-pad an odd trailing octet in the checksum, false = drop it. -/
  oddPad : Bool
  ipVersion : BitVec 4
  ipIhl : BitVec 4
  ipTos : Byte
  ipIdent : Half
  ipFlagsFrag : Half
deriving DecidableEq, Repr

/-- The legal range of `PMAX` (R8), the only parameter whose type does not already say its range. -/
abbrev Params.Legal (p : Params) : Prop := p.pmax ≤ 65507

/-- "This instance" of R8. The values of the five header constants are the spec's own decision (D11), not the source's
(UNVERIFIED, unsafe, log 13). -/
def Params.ckfs : Params where
  pmax := 4096
  oddPad := false
  ipVersion := 4
  ipIhl := 5
  ipTos := 0x00
  ipIdent := 0x0000
  ipFlagsFrag := 0x4000

/-- The eight writable parameter registers, indices 0x00 to 0x07 (R21, R22). -/
inductive ParamReg where
  | ttl | proto | srch | srcl | dsth | dstl | sport | dport
deriving DecidableEq, Repr

/-- The six read-only registers, indices 0x08 to 0x0D (R21): views that add no state (R20). -/
inductive ViewReg where
  | dlen | olen | status | cap | cfg | rev
deriving DecidableEq, Repr

/-- The names of the register space (R21). -/
inductive RegName where
  | param (r : ParamReg)
  | view (r : ViewReg)
deriving DecidableEq, Repr

end Sys2Proof
end

