-- ==== Sys2Proof/Machine/State.lean ====
section
/-!
DEFINITION. The state of the machine (10_state.md R20), the ports' state (30_encoding.md R70 to R72), the host's side
of the ports, the reasons a step can stop, and the state after reset (R39, 70_reset_and_hazards.md R190).
DIN and OUT are octet lists: "a model should not represent" cells beyond DLEN and OLEN (D30; DESIGN CHOICE, safe, log 1).
-/

namespace Sys2Proof.Machine

/-- The eight parameter registers (R21, R22), each 16 bits as seen through `WRP` and `RDP`. Bits 15:8 of `ttl` and
`proto` are always 0 (R20, R38 (d)): the one operation that writes registers keeps them so. -/
structure Regs where
  ttl : Half
  proto : Half
  srch : Half
  srcl : Half
  dsth : Half
  dstl : Half
  sport : Half
  dport : Half
deriving DecidableEq, Repr

/-- Where the ports stand between two rising edges of `clk` (R71, R72, R190). -/
inductive Port where
  /-- The last edge had `rst` = 1: `cmd_ready` = 0, `rsp_valid` = 0 (R190). -/
  | held
  /-- No command is in the unit: `cmd_ready` = 1, `rsp_valid` = 0. -/
  | ready
  /-- A command was accepted, and `rsp_valid` rises after `left + 1` more edges: `cmd_ready` = 0, `rsp_valid` = 0. -/
  | working (left : Nat) (rsp : Word)
  /-- The response is offered: `cmd_ready` = 0, `rsp_valid` = 1, `rsp_word` = `rsp`. -/
  | answering (rsp : Word)
deriving DecidableEq, Repr

/-- One rising edge of `clk`: what the input ports of R70 hold at it, and the free choice of LAT. -/
structure Edge where
  rst : Bool
  cmdValid : Bool
  /-- Meaningful while `cmdValid` (R70). -/
  cmdWord : Word
  rspReady : Bool
  /-- LAT - 1 of the command, if one is accepted at this edge. LAT is OPEN: at least 1, finite, and otherwise whatever
  this number makes it (R8, R72, R201; DESIGN CHOICE, safe, log 3). -/
  stall : Nat
deriving DecidableEq, Repr

/-- The whole state. `params` is the instance (R8; no step writes it, log 2); `regs` to `ecode` are the architectural
state of R20; `port` is the state of the ports. `offer`, `edges` and `delivered` are the model's own and stand for the
outside world (logs 5, 6, 10). -/
structure State where
  params : Params
  regs : Regs
  /-- `DIN`, index 0 first; `DLEN` is its length (R27, R34). -/
  din : List Byte
  /-- `OUT`, index 0 first; `OLEN` is its length (R28, R35). -/
  out : List Byte
  /-- `ERR` (R29). -/
  err : Bool
  /-- `ECODE` (R29). -/
  ecode : Byte
  port : Port
  /-- The word the host offered at the last edge and the unit did not accept. The host must offer it again, unchanged
  (R71, R202). -/
  offer : Option Word
  /-- The rising edges to come, the next one first. -/
  edges : List Edge
  /-- The responses transferred to the host so far, the first one first (R203). -/
  delivered : List Word
deriving DecidableEq, Repr

/-- Reasons the unit stops: none. "no fault that stops the unit" (R170); "there is no state in which it is stuck of its
own accord" (R204). -/
inductive Fault
deriving DecidableEq, Repr

/-- Reasons the model has no meaning for what comes next. -/
inductive Refusal where
  /-- Raised by `exec` for a command that has no meaning yet; no arm of `exec` raises it. Safe. -/
  | notModelled (mnemonic : String)
  /-- Raised by the clock edge at which the host changes or withdraws a command word it had offered and the unit had
  not accepted. "signal-level protocol violation; behaviour unspecified" (R202), treatment "refuse" (U3). Safe (log
  10). -/
  | unstableOffer
deriving DecidableEq, Repr

/-- The outcome of a step or of a command's meaning. -/
abbrev Result := Host.Outcome State Fault Refusal

/-- All parameter registers 0x0000 (R39). -/
def Regs.reset : Regs := ⟨0, 0, 0, 0, 0, 0, 0, 0⟩

/-- The state right after an edge with `rst` = 1 (R39, R190) of the instance `p`, with no edge to come and nothing
delivered yet. The unit drives `cmd_ready` = 1 only after the first edge with `rst` = 0 (log 8). -/
def State.resetOf (p : Params) : State where
  params := p
  regs := Regs.reset
  din := []
  out := []
  err := false
  ecode := 0x00
  port := .held
  offer := none
  edges := []
  delivered := []

/-- The machine right after reset: this instance. A run begins here (R203); there is no state before the first reset
(U4, log 12). -/
def State.reset : State := State.resetOf Params.ckfs

end Sys2Proof.Machine
end

