-- ==== Sys2Proof/Machine/Flags.lean ====
section
/-!
DEFINITION. The only flag is the sticky ERR with its first code ECODE (10_state.md R29, R30). STATUS is their view;
the error mechanism (60_exceptions.md R175) alone writes them.
-/

namespace Sys2Proof.Machine

/-- The error codes a command can end in (R171). -/
inductive ErrCode where
  | eOpcode | eReg | eOvf | eLen | eRange
deriving DecidableEq, Repr

/-- The `status` field of the response, which `ECODE` records too (R171). -/
def ErrCode.code : ErrCode → Byte
  | .eOpcode => 0x01
  | .eReg => 0x02
  | .eOvf => 0x03
  | .eLen => 0x04
  | .eRange => 0x05

/-- `STATUS = {ECODE, 0b0000000, ERR}` (R29, R151). -/
def statusWord (s : State) : Half := s.ecode ++ (0 : BitVec 7) ++ BitVec.ofBool s.err

/-- The state effect of an error (R175): `if ERR = 0 then ECODE <- E`, then `ERR <- 1`. -/
def State.recordError (e : ErrCode) (s : State) : State :=
  { s with ecode := if s.err then s.ecode else e.code, err := true }

end Sys2Proof.Machine
end

