-- ==== Sys2Proof/Machine/Operands.lean ====
section
/-!
DEFINITION. Operands: octets and words in network byte order (20_memory.md R52 to R55), and the register space
(10_state.md R21 to R33).
-/

namespace Sys2Proof.Machine

/-- `v[15:8]`. -/
def hiOctet (v : Half) : Byte := v.extractLsb' 8 8

/-- `v[7:0]`. -/
def loOctet (v : Half) : Byte := v.extractLsb' 0 8

/-- `be16(v) = [v[15:8], v[7:0]]` (R12). -/
def be16 (v : Half) : List Byte := [hiOctet v, loOctet v]

/-- `be32(v)`, most significant octet first (R12): a 32-bit field is its two halves, the high one first (R54). -/
def be32 (v : Word) : List Byte := be16 (v.extractLsb' 16 16) ++ be16 (v.extractLsb' 0 16)

/-- `{h, l}`: the word of two consecutive octets, the first being the high octet (R53). -/
def wordOf (h l : Byte) : Half := h ++ l

/-- The register an index of `WRP` or `RDP` names (R21); none for 0x0E to 0xFF. -/
def regOfIndex (i : Byte) : Option RegName :=
  if i = 0x00 then some (.param .ttl)
  else if i = 0x01 then some (.param .proto)
  else if i = 0x02 then some (.param .srch)
  else if i = 0x03 then some (.param .srcl)
  else if i = 0x04 then some (.param .dsth)
  else if i = 0x05 then some (.param .dstl)
  else if i = 0x06 then some (.param .sport)
  else if i = 0x07 then some (.param .dport)
  else if i = 0x08 then some (.view .dlen)
  else if i = 0x09 then some (.view .olen)
  else if i = 0x0A then some (.view .status)
  else if i = 0x0B then some (.view .cap)
  else if i = 0x0C then some (.view .cfg)
  else if i = 0x0D then some (.view .rev)
  else none

/-- The index of a register (R21). -/
def indexOfReg : RegName → Byte
  | .param .ttl => 0x00
  | .param .proto => 0x01
  | .param .srch => 0x02
  | .param .srcl => 0x03
  | .param .dsth => 0x04
  | .param .dstl => 0x05
  | .param .sport => 0x06
  | .param .dport => 0x07
  | .view .dlen => 0x08
  | .view .olen => 0x09
  | .view .status => 0x0A
  | .view .cap => 0x0B
  | .view .cfg => 0x0C
  | .view .rev => 0x0D

/-- The stored value of a parameter register. -/
def Regs.get (g : Regs) : ParamReg → Half
  | .ttl => g.ttl
  | .proto => g.proto
  | .srch => g.srch
  | .srcl => g.srcl
  | .dsth => g.dsth
  | .dstl => g.dstl
  | .sport => g.sport
  | .dport => g.dport

/-- What a write of `v` stores: `TTL` and `PROTO` keep `v[7:0]` and discard `v[15:8]` (R23); the others keep `v`. -/
def storedValue : ParamReg → Half → Half
  | .ttl, v => wordOf 0 (loOctet v)
  | .proto, v => wordOf 0 (loOctet v)
  | .srch, v => v
  | .srcl, v => v
  | .dsth, v => v
  | .dstl, v => v
  | .sport, v => v
  | .dport, v => v

/-- Write one parameter register (R150): the halves of an address are independent (R24). -/
def Regs.set (g : Regs) (r : ParamReg) (v : Half) : Regs :=
  match r with
  | .ttl => { g with ttl := storedValue r v }
  | .proto => { g with proto := storedValue r v }
  | .srch => { g with srch := storedValue r v }
  | .srcl => { g with srcl := storedValue r v }
  | .dsth => { g with dsth := storedValue r v }
  | .dstl => { g with dstl := storedValue r v }
  | .sport => { g with sport := storedValue r v }
  | .dport => { g with dport := storedValue r v }

/-- `SRC = {SRCH, SRCL}` (R24). -/
def Regs.src (g : Regs) : Word := g.srch ++ g.srcl

/-- `DST = {DSTH, DSTL}` (R24). -/
def Regs.dst (g : Regs) : Word := g.dsth ++ g.dstl

/-- A length as a `u16`: in every reachable state it fits (R27, R28; log 16 for the others). -/
def lengthHalf (n : Nat) : Half := BitVec.ofNat 16 n

/-- The read-only views (R27 to R33). -/
def State.view (s : State) : ViewReg → Half
  | .dlen => lengthHalf s.din.length
  | .olen => lengthHalf s.out.length
  | .status => statusWord s
  | .cap => lengthHalf s.params.pmax
  | .cfg => (0 : BitVec 15) ++ BitVec.ofBool s.params.oddPad
  | .rev => 0x0001

/-- `x[reg]` (R151): the stored value, or the view. -/
def State.readReg (s : State) : RegName → Half
  | .param r => s.regs.get r
  | .view r => s.view r

end Sys2Proof.Machine
end

