-- ==== Sys2Proof/Machine/Ops.lean ====
section
/-!
DEFINITION. The operations every meaning is made of: the updates of the state, ending a command OK (30_encoding.md
R76), ending a command in error (60_exceptions.md R170 to R177, the one exceptional mechanism), and appending to DIN.
-/

namespace Sys2Proof.Machine

def State.withRegs (s : State) (g : Regs) : State := { s with regs := g }

def State.withDin (s : State) (bs : List Byte) : State := { s with din := bs }

/-- `OUT <- bs`: the whole valid content is replaced (R13, R35). -/
def State.withOut (s : State) (bs : List Byte) : State := { s with out := bs }

def State.withPort (s : State) (p : Port) : State := { s with port := p }

def State.withOffer (s : State) (o : Option Word) : State := { s with offer := o }

def State.withEdges (s : State) (es : List Edge) : State := { s with edges := es }

def State.withDelivered (s : State) (ws : List Word) : State := { s with delivered := ws }

/-- The OK response `{0x00, 0x00, v}` (R76). -/
def okWord (v : Half) : Word := (0 : Byte) ++ (0 : Byte) ++ v

/-- The error response `{E, 0x00, 0x0000}`, that is `E << 24` (R76, R174). -/
def errorWord (e : ErrCode) : Word := e.code ++ (0 : Byte) ++ (0 : Half)

/-- `respond(v)` (R13): the command ends OK, and its response word is offered. -/
def respond (v : Half) (s : State) : Result := .next (s.withPort (.answering (okWord v)))

/-- `raise E` (R13, R175): the command ends in error. Of the state only STATUS changes; nothing is saved, no mode
changes, no control goes anywhere. There is nothing to return from (R177): the unit is ready for the next command once
the response is taken. -/
def raise (e : ErrCode) (s : State) : Result := .next ((s.recordError e).withPort (.answering (errorWord e)))

/-- `DIN <- DIN ++ bs` for `n` octets `bs`, the shared shape of the appends (R34, R153 to R155): an append that would
pass PMAX ends in `E_OVF` and appends nothing. The sum is of naturals and does not wrap (R114 (d), R155). -/
def appendDin (n : Nat) (bs : List Byte) (s : State) : Result :=
  if s.din.length + n > s.params.pmax then raise .eOvf s else respond 0x0000 (s.withDin (s.din ++ bs))

/-- An illegal word (R78): no state changes but STATUS, and the response is `E_OPCODE`. -/
def illegalWord (s : State) : Result := raise .eOpcode s

end Sys2Proof.Machine
end

