-- ==== Sys2Proof/Machine/Checksum.lean ====
section
/-!
DEFINITION. The checksum function (40_checksum.md R100, R101) and the command `CKSUM` (R102).
-/

namespace Sys2Proof.Machine

/-- One's-complement 16-bit addition with end-around carry (R100): the sum in 32-bit precision, and when it exceeds 16
bits, masking to 16 bits and incrementing by 1. -/
def ocAdd (a b : Half) : Half :=
  let sum : Word := a.setWidth 32 + b.setWidth 32
  let folded : Word := if sum &&& 0xFFFF0000 ≠ 0 then (sum &&& 0x0000FFFF) + 1 else sum
  folded.extractLsb' 0 16

/-- The words that R101 adds, in order: consecutive octets in pairs, the first of a pair being the high octet (R53). An
odd last octet is dropped, or with `ODD_PAD` is the high octet of a final word (R101, R111). The pairing is relative to
the start of the sequence (R56). -/
def summedWords (oddPad : Bool) : List Byte → List Half
  | h :: l :: rest => wordOf h l :: summedWords oddPad rest
  | [h] => if oddPad then [wordOf h 0x00] else []
  | [] => []

/-- The folded sum after the last addition of R101, each addition followed by its end-around carry. -/
def foldedSum (oddPad : Bool) (bs : List Byte) : Half := (summedWords oddPad bs).foldl ocAdd 0x0000

/-- `cksum(B)` (R101): the 16-bit complement of the folded sum. A function of the octets and of `ODD_PAD` alone
(R112). -/
def cksum (oddPad : Bool) (bs : List Byte) : Half := ~~~ foldedSum oddPad bs

/-- `CKSUM` (R102): `respond( cksum(DIN[0 .. DLEN-1]) )`. -/
def execCksum (s : State) : Result := respond (cksum s.params.oddPad s.din) s

end Sys2Proof.Machine
end

