-- ==== Sys2Proof/Machine/HeaderBuilder.lean ====
section
/-!
DEFINITION. The header builder (41_header_builder.md R120 to R128; layouts of 30_encoding.md R81, R82, R84) and the
commands `BLD.OUTER` (R122) and `BLD.INNER` (R125). A builder serializes with the checksum field 0, computes the
checksum, and serializes the identical layout with it. Nothing is cached (R127), validated or substituted (R128), and
there is no pseudo-header (R126).
-/

namespace Sys2Proof.Machine

/-- `outer_bytes(L, ttl, proto, src, dst, ck)` (R120), 20 octets. -/
def outerBytes (p : Params) (following : Nat) (ttl proto : Byte) (src dst : Word) (ck : Half) : List Byte :=
  [p.ipVersion ++ p.ipIhl, p.ipTos] ++ be16 (lengthHalf (20 + following)) ++ be16 p.ipIdent ++ be16 p.ipFlagsFrag
    ++ [ttl, proto] ++ be16 ck ++ be32 src ++ be32 dst

/-- `build_outer(L, ttl, proto, src, dst)` (R121): the checksum covers these 20 octets and nothing else (C1). -/
def buildOuter (p : Params) (following : Nat) (ttl proto : Byte) (src dst : Word) : List Byte :=
  let zeroed := outerBytes p following ttl proto src dst 0x0000
  outerBytes p following ttl proto src dst (cksum p.oddPad zeroed)

/-- `inner_bytes(sp, dp, pay, ck)` (R123), 8 octets and the payload. -/
def innerBytes (sp dp : Half) (pay : List Byte) (ck : Half) : List Byte :=
  be16 sp ++ be16 dp ++ be16 (lengthHalf (8 + pay.length)) ++ be16 ck ++ pay

/-- `build_inner(sp, dp, pay)` (R124): the checksum covers the 8 header octets and the whole payload. -/
def buildInner (p : Params) (sp dp : Half) (pay : List Byte) : List Byte :=
  let zeroed := innerBytes sp dp pay 0x0000
  innerBytes sp dp pay (cksum p.oddPad zeroed)

/-- `build_outer` of the registers' values, for `following` octets. -/
def outerOf (s : State) (following : Nat) : List Byte :=
  buildOuter s.params following (loOctet s.regs.ttl) (loOctet s.regs.proto) s.regs.src s.regs.dst

/-- `build_inner` of the registers' values and DIN. -/
def innerOf (s : State) : List Byte := buildInner s.params s.regs.sport s.regs.dport s.din

/-- `BLD.OUTER imm16` (R122): `E_LEN` when the total length does not fit its 16-bit field; DIN is not read. -/
def execBldOuter (imm16 : Half) (s : State) : Result :=
  if 20 + imm16.toNat > 65535 then raise .eLen s else respond 20 (s.withOut (outerOf s imm16.toNat))

/-- `BLD.INNER` (R125). -/
def execBldInner (s : State) : Result := respond (lengthHalf (8 + s.din.length)) (s.withOut (innerOf s))

end Sys2Proof.Machine
end

