-- ==== Sys2Proof/Machine/FrameConstructor.lean ====
section
/-!
DEFINITION. The frame constructor (42_frame_constructor.md R140; layout of 30_encoding.md R83) and the command
`BLD.FRAME` (R141).
-/

namespace Sys2Proof.Machine

/-- `build_frame(ttl, proto, src, dst, sp, dp, pay)` (R140): the outer header is built from the length of the inner
result and from nothing else of it (C5). -/
def buildFrame (p : Params) (ttl proto : Byte) (src dst : Word) (sp dp : Half) (pay : List Byte) : List Byte :=
  let inner := buildInner p sp dp pay
  buildOuter p inner.length ttl proto src dst ++ inner

/-- `build_frame` of the registers' values and DIN. -/
def frameOf (s : State) : List Byte :=
  buildFrame s.params (loOctet s.regs.ttl) (loOctet s.regs.proto) s.regs.src s.regs.dst s.regs.sport s.regs.dport s.din

/-- `BLD.FRAME` (R141). -/
def execBldFrame (s : State) : Result := respond (lengthHalf (28 + s.din.length)) (s.withOut (frameOf s))

end Sys2Proof.Machine
end

