-- ==== Sys2Proof/Machine/HostAccess.lean ====
section
/-!
DEFINITION. The host access commands (43_host_access.md R150 to R156): `WRP`, `RDP`, `DCLR`, `DPUSH`, `DPUSH2`,
`DZERO`, `RDO`. The one addressing mode is the immediate index, used as it is (R159).
-/

namespace Sys2Proof.Machine

/-- `WRP reg, imm16` (R150): `E_REG` when `reg` is read-only or unimplemented. -/
def execWrp (reg : Byte) (imm16 : Half) (s : State) : Result :=
  match regOfIndex reg with
  | some (.param r) => respond 0x0000 (s.withRegs (s.regs.set r imm16))
  | some (.view _) => raise .eReg s
  | none => raise .eReg s

/-- `RDP reg` (R151): `E_REG` when `reg` is unimplemented. Reading STATUS does not clear it (R59). -/
def execRdp (reg : Byte) (s : State) : Result :=
  match regOfIndex reg with
  | some r => respond (s.readReg r) s
  | none => raise .eReg s

/-- `DCLR` (R152). -/
def execDclr (s : State) : Result := respond 0x0000 (s.withDin [])

/-- `DPUSH imm8` (R153). -/
def execDpush (imm8 : Byte) (s : State) : Result := appendDin 1 [imm8] s

/-- `DPUSH2 imm16` (R154): both octets, most significant first, or neither. -/
def execDpush2 (imm16 : Half) (s : State) : Result := appendDin 2 (be16 imm16) s

/-- `DZERO imm16` (R155): no partial fill. -/
def execDzero (imm16 : Half) (s : State) : Result := appendDin imm16.toNat (List.replicate imm16.toNat 0x00) s

/-- `RDO imm16` (R156): `E_RANGE` when `imm16 >= OLEN`. -/
def execRdo (imm16 : Half) (s : State) : Result :=
  match s.out[imm16.toNat]? with
  | some b => respond (wordOf 0x00 b) s
  | none => raise .eRange s

end Sys2Proof.Machine
end

