-- ==== Sys2Proof/Machine/Dispatch.lean ====
section
/-!
DEFINITION. One arm for each of the eleven commands of 30_encoding.md R74, each a direct call of its meaning.
-/

namespace Sys2Proof.Machine

def exec (i : Instr) (s : State) : Host.Outcome State Fault Refusal :=
  match i with
  | .wrp reg imm16 => Sys2Proof.Machine.execWrp reg imm16 s
  | .rdp reg => Sys2Proof.Machine.execRdp reg s
  | .dclr => Sys2Proof.Machine.execDclr s
  | .dpush imm8 => Sys2Proof.Machine.execDpush imm8 s
  | .dpush2 imm16 => Sys2Proof.Machine.execDpush2 imm16 s
  | .dzero imm16 => Sys2Proof.Machine.execDzero imm16 s
  | .rdo imm16 => Sys2Proof.Machine.execRdo imm16 s
  | .cksum => Sys2Proof.Machine.execCksum s
  | .bldOuter imm16 => Sys2Proof.Machine.execBldOuter imm16 s
  | .bldInner => Sys2Proof.Machine.execBldInner s
  | .bldFrame => Sys2Proof.Machine.execBldFrame s

end Sys2Proof.Machine
end

