-- ==== Sys2Proof/Machine/Transaction.lean ====
section
/-!
DEFINITION. The transaction level (00_scope.md R6): one atomic state transition and one response word for each accepted
command word, and runs of it (70_reset_and_hazards.md R203).
-/

namespace Sys2Proof.Machine

/-- What an accepted word does: decoding comes first (R173), then the command runs, or the word is illegal (R78). -/
def runWord (w : Word) (s : State) : Result :=
  match decode w with
  | .command i => exec i s
  | .illegal _ => illegalWord s

/-- The response of the command in the unit, if there is one. -/
def Port.pending : Port → Option Word
  | .held => none
  | .ready => none
  | .working _ rsp => some rsp
  | .answering rsp => some rsp

/-- The response of the command in the unit is transferred to the host, and the unit is ready (R71, R72). -/
def State.takeResponse (s : State) : State :=
  (s.withDelivered (s.delivered ++ s.port.pending.toList)).withPort .ready

/-- One transaction (R6): the word is accepted and executed, and its response transferred. -/
def transaction (w : Word) (s : State) : Result :=
  match runWord w s with
  | .next t => .next t.takeResponse
  | .fault r => .fault r
  | .refused r => .refused r

/-- A run (R203) of the words from a state: each is one transaction. `delivered` then holds the responses, in order. -/
def runWords : List Word → State → Result
  | [], s => .next s
  | w :: ws, s =>
    match transaction w s with
    | .next t => runWords ws t
    | .fault r => .fault r
    | .refused r => .refused r

end Sys2Proof.Machine
end

