-- ==== Sys2Proof/Machine/Clock.lean ====
section
/-!
DEFINITION. The signal level (30_encoding.md R70 to R72, 70_reset_and_hazards.md R190, R191): what one rising edge of
`clk` does, and what the output ports hold between two edges.
-/

namespace Sys2Proof.Machine

/-- The output ports (R70). -/
structure OutPins where
  cmdReady : Bool
  rspValid : Bool
  /-- `rsp_word`; absent while `rsp_valid` = 0, when it is any value (U11, log 11). -/
  rspWord : Option Word
deriving DecidableEq, Repr

/-- What the unit drives until the next edge (R71, R72, R190). -/
def Port.outPins : Port → OutPins
  | .held => ⟨false, false, none⟩
  | .ready => ⟨true, false, none⟩
  | .working _ _ => ⟨false, false, none⟩
  | .answering rsp => ⟨false, true, some rsp⟩

/-- The word the host offers at an edge, if any. -/
def Edge.offered (e : Edge) : Option Word := if e.cmdValid then some e.cmdWord else none

/-- The host keeps its word (R202): what it offered and the unit did not accept, it offers again. -/
def State.offerKept (s : State) (e : Edge) : Bool :=
  match s.offer with
  | some w => e.offered == some w
  | none => true

/-- The response of the command just run waits LAT cycles from acceptance (R72): `stall` = LAT - 1 edges after this one
pass before `rsp_valid` rises (log 17). -/
def State.delayed (s : State) (stall : Nat) : State :=
  match s.port, stall with
  | .answering rsp, n + 1 => s.withPort (.working n rsp)
  | _, _ => s

/-- An edge at which a command word is accepted (R71): the command executes, and its state change happens here (DESIGN
CHOICE, safe, log 4), before the response is offered (R72). -/
def acceptEdge (e : Edge) (s : State) : Result :=
  match runWord e.cmdWord (s.withOffer none) with
  | .next t => .next (t.delayed e.stall)
  | .fault r => .fault r
  | .refused r => .refused r

/-- An edge with `rst` = 1 (R190, R191): the reset state, whatever the unit was doing; a command in the unit is abandoned
and its response never transferred (log 9). The instance stays, and so does what the host has taken and will do. -/
def resetEdge (e : Edge) (s : State) : State :=
  { State.resetOf s.params with offer := e.offered, edges := s.edges, delivered := s.delivered }

/-- An edge with `rst` = 0 (R71, R72, R190): the first one after reset makes the unit ready; a ready unit accepts an
offered word; a working unit comes one cycle nearer to its response; an answering unit hands its response over when
`rsp_ready` = 1, and is ready from then on. -/
def runEdge (e : Edge) (s : State) : Result :=
  match s.port with
  | .held => .next ((s.withPort .ready).withOffer e.offered)
  | .ready => if e.cmdValid then acceptEdge e s else .next (s.withOffer none)
  | .working 0 rsp => .next ((s.withPort (.answering rsp)).withOffer e.offered)
  | .working (n + 1) rsp => .next ((s.withPort (.working n rsp)).withOffer e.offered)
  | .answering _ => .next ((if e.rspReady then s.takeResponse else s).withOffer e.offered)

/-- One rising edge. A host that changes or withdraws an offered word leaves the unit's behaviour unspecified (R202,
U3): refused. Reset is taken without that reserve (R190; DESIGN CHOICE, unsafe, log 10). -/
def clockEdge (e : Edge) (s : State) : Result :=
  if e.rst then .next (resetEdge e s)
  else if s.offerKept e then runEdge e s
  else .refused .unstableOffer

/-- The next edge listed, if there is one; with no edge the state does not change (R7, R188; DESIGN CHOICE, log 5). -/
def clock (s : State) : Result :=
  match s.edges with
  | [] => .next s
  | e :: rest => clockEdge e (s.withEdges rest)

/-- The edge at which a ready unit accepts `w`, with LAT = 1. -/
def offerEdge (w : Word) : Edge := ⟨false, true, w, false, 0⟩

/-- The state in which the very next edge accepts `w`: a response still in the unit is transferred first, no other
word is on offer, and the edge is the first to come (log 7). -/
def State.placeWord (s : State) (w : Word) : State :=
  (s.takeResponse.withOffer none).withEdges (offerEdge w :: s.edges)

end Sys2Proof.Machine
end

