-- ==== Sys2Proof/Machine/Step.lean ====
section
/-!
DEFINITION. One step is one rising edge of `clk` (30_encoding.md R70): Machine/Clock.lean.
-/

namespace Sys2Proof.Machine

def step (s : State) : Host.Outcome State Fault Refusal := clock s

/-- The state whose very next step accepts and runs the word `w` (of `nbits` bits, the others 0). -/
def State.withFetchWord (s : State) (nbits w : Nat) : State := s.placeWord (BitVec.ofNat 32 (w % 2 ^ nbits))

end Sys2Proof.Machine
end

