-- ==== Sys2Proof/WellFormed.lean ====
section
/-!
DEFINITION. Source lines and their well-formedness (30_encoding.md R85, R86). A command's operands have the width of
their fields, so no term of `Instr` is ill-formed; what can be ill-formed is a line of assembler source, whose operands
are numbers of any size: "Immediates ... must fit their field (an assembler refuses a value that does not fit; it never
truncates)" (R85). Machine/Assembler.lean turns a well-formed line into commands and refuses every other.
-/

namespace Sys2Proof

/-- A register operand: "a register name of `10_state.md` rule R21 or ... a number" (R85). -/
inductive RegOperand where
  | named (r : RegName)
  | numbered (n : Nat)
deriving DecidableEq, Repr

/-- A 32-bit address operand: a number, or the dotted form of R86. -/
inductive AddrOperand where
  | number (n : Nat)
  | dotted (a b c d : Nat)
deriving DecidableEq, Repr

/-- One line of assembler source: the eleven commands (R85) and the five pseudo-instructions (R86). -/
inductive Line where
  | wrp (reg : RegOperand) (imm16 : Nat)
  | rdp (reg : RegOperand)
  | dclr
  | dpush (imm8 : Nat)
  | dpush2 (imm16 : Nat)
  | dzero (imm16 : Nat)
  | rdo (imm16 : Nat)
  | cksum
  | bldOuter (imm16 : Nat)
  | bldInner
  | bldFrame
  /-- `SETSRC imm32`. -/
  | setsrc (addr : AddrOperand)
  /-- `SETDST imm32`. -/
  | setdst (addr : AddrOperand)
  /-- `DLOAD b0, b1, ...`. -/
  | dload (octets : List Nat)
  /-- `DFILLZ n`. -/
  | dfillz (n : Nat)
  /-- `RDO16 k`. -/
  | rdo16 (k : Nat)
deriving DecidableEq, Repr

/-- The number fits a field of `bits` bits (R85). -/
abbrev fits (bits n : Nat) : Bool := n < 2 ^ bits

/-- A register name always fits; a number fits the 8-bit field `reg` (R73). That the register exists is no matter of
form: "an unimplemented or read-only `reg` is an `E_REG` error of execution" (R78). -/
def RegOperand.wf : RegOperand → Bool
  | .named _ => true
  | .numbered n => fits 8 n

/-- An address fits 32 bits; each part of the dotted form is an octet (R86). -/
def AddrOperand.wf : AddrOperand → Bool
  | .number n => fits 32 n
  | .dotted a b c d => fits 8 a && fits 8 b && fits 8 c && fits 8 d

/-- The line's operands fit their fields (R85), and so do those of the commands it expands to (R86): `RDO16 k` reads
the indices `k` and `k + 1`, so both must fit. `DLOAD` may have any number of octets, also none, on which R86 is silent
(DESIGN CHOICE, safe for the unit, log 18). -/
def Line.wf : Line → Bool
  | .wrp reg imm16 => reg.wf && fits 16 imm16
  | .rdp reg => reg.wf
  | .dpush imm8 => fits 8 imm8
  | .dpush2 imm16 => fits 16 imm16
  | .dzero imm16 => fits 16 imm16
  | .rdo imm16 => fits 16 imm16
  | .bldOuter imm16 => fits 16 imm16
  | .setsrc addr => addr.wf
  | .setdst addr => addr.wf
  | .dload octets => octets.all (fits 8)
  | .dfillz n => fits 16 n
  | .rdo16 k => fits 16 k && fits 16 (k + 1)
  | .dclr => true
  | .cksum => true
  | .bldInner => true
  | .bldFrame => true

end Sys2Proof
end

