-- ==== Sys2Proof/Machine/Assembler.lean ====
section
/-!
DEFINITION. The assembler of 30_encoding.md R85 and R86: from source text to lines, from lines to commands. Text is a
list of characters. What R85 does not say of white space and of lines without a command is log 14.
-/

namespace Sys2Proof.Machine

/-- The index an operand names (R21, R85). -/
def regIndex : RegOperand → Byte
  | .named r => indexOfReg r
  | .numbered n => BitVec.ofNat 8 n

/-- `a.b.c.d` stands for `{a, b, c, d}`, `a` the most significant octet (R86). -/
def addrValue : AddrOperand → Word
  | .number n => BitVec.ofNat 32 n
  | .dotted a b c d => BitVec.ofNat 8 a ++ BitVec.ofNat 8 b ++ BitVec.ofNat 8 c ++ BitVec.ofNat 8 d

/-- `WRP high, imm32[31:16] ; WRP low, imm32[15:0]` (R86). -/
def writeAddr (high low : ParamReg) (addr : Word) : List Instr :=
  [.wrp (indexOfReg (.param high)) (addr.extractLsb' 16 16), .wrp (indexOfReg (.param low)) (addr.extractLsb' 0 16)]

/-- The commands of a well-formed line, in order (R85, R86). -/
def expand : Line → List Instr
  | .wrp reg imm16 => [.wrp (regIndex reg) (BitVec.ofNat 16 imm16)]
  | .rdp reg => [.rdp (regIndex reg)]
  | .dclr => [.dclr]
  | .dpush imm8 => [.dpush (BitVec.ofNat 8 imm8)]
  | .dpush2 imm16 => [.dpush2 (BitVec.ofNat 16 imm16)]
  | .dzero imm16 => [.dzero (BitVec.ofNat 16 imm16)]
  | .rdo imm16 => [.rdo (BitVec.ofNat 16 imm16)]
  | .cksum => [.cksum]
  | .bldOuter imm16 => [.bldOuter (BitVec.ofNat 16 imm16)]
  | .bldInner => [.bldInner]
  | .bldFrame => [.bldFrame]
  | .setsrc addr => writeAddr .srch .srcl (addrValue addr)
  | .setdst addr => writeAddr .dsth .dstl (addrValue addr)
  | .dload octets => .dclr :: octets.map fun b => .dpush (BitVec.ofNat 8 b)
  | .dfillz n => [.dclr, .dzero (BitVec.ofNat 16 n)]
  | .rdo16 k => [.rdo (BitVec.ofNat 16 k), .rdo (BitVec.ofNat 16 (k + 1))]

/-- "an assembler refuses a value that does not fit; it never truncates" (R85). -/
def assemble (l : Line) : Option (List Instr) := if l.wf then some (expand l) else none

/-- The value of a digit below `base`. -/
def digitOf (base : Nat) (c : Char) : Option Nat :=
  let n := c.toNat
  let v := if 48 ≤ n ∧ n ≤ 57 then n - 48 else if 65 ≤ n ∧ n ≤ 70 then n - 55
    else if 97 ≤ n ∧ n ≤ 102 then n - 87 else base
  if v < base then some v else none

/-- The number that the digits continue from `acc`. -/
def digitsFrom (base : Nat) (acc : Nat) : List Char → Option Nat
  | [] => some acc
  | c :: rest =>
    match digitOf base c with
    | some v => digitsFrom base (acc * base + v) rest
    | none => none

/-- "in decimal or with `0x` in hexadecimal" (R85). Leading zeros do not change the base (DESIGN CHOICE, log 19). -/
def readNumber : List Char → Option Nat
  | '0' :: 'x' :: c :: rest => digitsFrom 16 0 (c :: rest)
  | c :: rest => digitsFrom 10 0 (c :: rest)
  | [] => none

/-- The register names of R21. -/
def regNames : List (List Char × RegName) :=
  [(['T', 'T', 'L'], .param .ttl), (['P', 'R', 'O', 'T', 'O'], .param .proto), (['S', 'R', 'C', 'H'], .param .srch),
    (['S', 'R', 'C', 'L'], .param .srcl), (['D', 'S', 'T', 'H'], .param .dsth), (['D', 'S', 'T', 'L'], .param .dstl),
    (['S', 'P', 'O', 'R', 'T'], .param .sport), (['D', 'P', 'O', 'R', 'T'], .param .dport),
    (['D', 'L', 'E', 'N'], .view .dlen), (['O', 'L', 'E', 'N'], .view .olen),
    (['S', 'T', 'A', 'T', 'U', 'S'], .view .status), (['C', 'A', 'P'], .view .cap), (['C', 'F', 'G'], .view .cfg),
    (['R', 'E', 'V'], .view .rev)]

/-- "a register name ... or a number" (R85), the number being read as an immediate is (DESIGN CHOICE, log 19). -/
def readReg (cs : List Char) : Option RegOperand :=
  match regNames.lookup cs with
  | some r => some (.named r)
  | none => (readNumber cs).map .numbered

/-- The pieces of a text between the characters `sep`. -/
def splitAt (sep : Char) : List Char → List (List Char)
  | [] => [[]]
  | c :: rest =>
    match splitAt sep rest with
    | p :: ps => if c = sep then [] :: p :: ps else (c :: p) :: ps
    | [] => [[c]]

/-- White space: a space or a tab (log 14). -/
def isBlank (c : Char) : Bool := c = ' ' || c = '\t'

/-- The text without white space at its two ends. -/
def trim (cs : List Char) : List Char := ((cs.dropWhile isBlank).reverse.dropWhile isBlank).reverse

/-- An address operand: a number or `a.b.c.d` (R86). R86 gives the parts of the dotted form no base: each is read as an
immediate is, in decimal or with `0x` in hexadecimal, with no white space around the dots (DESIGN CHOICE, log 19). -/
def readAddr (cs : List Char) : Option AddrOperand :=
  match (splitAt '.' cs).map readNumber with
  | [some n] => some (.number n)
  | [some a, some b, some c, some d] => some (.dotted a b c d)
  | _ => none

/-- All of the options' values, if each has one. -/
def allSome : List (Option Nat) → Option (List Nat)
  | [] => some []
  | none :: _ => none
  | some n :: rest => (allSome rest).map (n :: ·)

/-- A mnemonic without operands. -/
def readBare (l : Line) (ops : List (List Char)) : Option Line := if ops.isEmpty then some l else none

/-- A mnemonic with one immediate. -/
def readImmediate (l : Nat → Line) (ops : List (List Char)) : Option Line :=
  match ops with
  | [v] => (readNumber v).map l
  | _ => none

/-- A mnemonic with one address. -/
def readAddress (l : AddrOperand → Line) (ops : List (List Char)) : Option Line :=
  match ops with
  | [v] => (readAddr v).map l
  | _ => none

/-- `WRP reg, imm16`. -/
def readWrp (ops : List (List Char)) : Option Line :=
  match ops with
  | [r, v] => (readReg r).bind fun reg => (readNumber v).map (.wrp reg)
  | _ => none

/-- `RDP reg`. -/
def readRdp (ops : List (List Char)) : Option Line :=
  match ops with
  | [r] => (readReg r).map .rdp
  | _ => none

/-- The mnemonics of R74 and the pseudo-instructions of R86, with what each takes. `DLOAD` takes any number of octets,
also none (DESIGN CHOICE, log 18). -/
def mnemonics : List (List Char × (List (List Char) → Option Line)) :=
  [(['W', 'R', 'P'], readWrp), (['R', 'D', 'P'], readRdp), (['D', 'C', 'L', 'R'], readBare .dclr),
    (['D', 'P', 'U', 'S', 'H'], readImmediate .dpush), (['D', 'P', 'U', 'S', 'H', '2'], readImmediate .dpush2),
    (['D', 'Z', 'E', 'R', 'O'], readImmediate .dzero), (['R', 'D', 'O'], readImmediate .rdo),
    (['C', 'K', 'S', 'U', 'M'], readBare .cksum), (['B', 'L', 'D', '.', 'O', 'U', 'T', 'E', 'R'], readImmediate .bldOuter),
    (['B', 'L', 'D', '.', 'I', 'N', 'N', 'E', 'R'], readBare .bldInner),
    (['B', 'L', 'D', '.', 'F', 'R', 'A', 'M', 'E'], readBare .bldFrame)]
    ++ [(['S', 'E', 'T', 'S', 'R', 'C'], readAddress .setsrc), (['S', 'E', 'T', 'D', 'S', 'T'], readAddress .setdst),
    (['D', 'L', 'O', 'A', 'D'], fun ops => (allSome (ops.map readNumber)).map .dload),
    (['D', 'F', 'I', 'L', 'L', 'Z'], readImmediate .dfillz), (['R', 'D', 'O', '1', '6'], readImmediate .rdo16)]

/-- What a source line holds: nothing, or a line of assembler; no answer when it is neither. "`;` starts a comment that
runs to the end of the line"; "a mnemonic ..., in capitals, then operands separated by commas" (R85). -/
def readLine (text : List Char) : Option (Option Line) :=
  let body := trim (text.takeWhile (· ≠ ';'))
  if body.isEmpty then some none
  else
    let mnemonic := body.takeWhile fun c => !isBlank c
    let operands := trim (body.dropWhile fun c => !isBlank c)
    match mnemonics.lookup mnemonic with
    | some read => (read (if operands.isEmpty then [] else (splitAt ',' operands).map trim)).map some
    | none => none

/-- The commands of a source line. -/
def assembleText (text : List Char) : Option (List Instr) :=
  match readLine text with
  | some (some l) => assemble l
  | some none => some []
  | none => none

end Sys2Proof.Machine
end

