-- ==== Sys2Proof/Machine/AdderTree.lean ====
section
/-!
DEFINITION. The organisations of the adders that 40_checksum.md R107 and R113 leave to an implementation. They are
invisible to the host, and the architecture is `cksum` (Machine/Checksum.lean); these are what claims about them are
stated of.
-/

namespace Sys2Proof.Machine

/-- A tree of `oc_add` elements of any shape (R113): a leaf holds the word fed to a lane. -/
inductive AdderTree where
  | lane (w : Half)
  | add (l r : AdderTree)
deriving DecidableEq, Repr

/-- The words fed to the lanes, from left to right. -/
def AdderTree.fed : AdderTree → List Half
  | .lane w => [w]
  | .add l r => l.fed ++ r.fed

/-- What the tree puts out: every element is an `oc_add` (R113 (a)). -/
def AdderTree.output : AdderTree → Half
  | .lane w => w
  | .add l r => ocAdd l.output r.output

/-- A running 16-bit accumulator into which the outputs of a tree are folded, one per cycle (R113). -/
def accumulate (cycles : List AdderTree) : Half := (cycles.map AdderTree.output).foldl ocAdd 0x0000

/-- The words' sum in a wide accumulator, a natural number (R104, R107). -/
def wideSum (ws : List Half) : Nat := (ws.map BitVec.toNat).sum

/-- At most `rounds` rounds of `while T > 0xFFFF do T := (T & 0xFFFF) + (T >> 16)` (R107). -/
def foldRounds : Nat → Nat → Nat
  | 0, t => t
  | n + 1, t => if t > 0xFFFF then foldRounds n ((t &&& 0xFFFF) + (t >>> 16)) else t

/-- The deferred fold of R107. Each round makes a number above 0xFFFF smaller, so that number of rounds is enough. -/
def deferredFold (t : Nat) : Nat := foldRounds t t

end Sys2Proof.Machine
end

