-- ==== Sys2Proof/Safety.lean ====
section
/-!
DEFINITION. The terms in which claims are made: the invariant of every reachable state (10_state.md R38), how a command
ends, what it leaves unchanged, and the correspondence of the signal level with the transaction level.
-/

namespace Sys2Proof.Machine

/-- `OLEN` is a length that a build command leaves (R38 (c)): 0, 20, `8 + k` or `28 + k` for some `0 <= k <= PMAX`. -/
abbrev LegalOutLength (pmax n : Nat) : Prop :=
  n = 0 ∨ n = 20 ∨ (8 ≤ n ∧ n ≤ 8 + pmax) ∨ (28 ≤ n ∧ n ≤ 28 + pmax)

/-- What holds in every reachable state: a legal instance (R8), and R38 (a) to (e). R38 (f) is about two states. -/
structure State.Inv (s : State) : Prop where
  legal : s.params.Legal
  din : s.din.length ≤ s.params.pmax
  out : s.out.length ≤ s.params.pmax + 28
  outShape : LegalOutLength s.params.pmax s.out.length
  ttl : hiOctet s.regs.ttl = 0
  proto : hiOctet s.regs.proto = 0
  status : s.err = false ↔ s.ecode = 0x00

/-- The command ended OK with data `v` (R76): its response is offered and STATUS is as it was. -/
structure EndsOk (v : Half) (s t : State) : Prop where
  response : t.port = .answering ((0x0000 : Half) ++ v)
  err : t.err = s.err
  ecode : t.ecode = s.ecode

/-- Nothing of the outside world and of the instance has changed: no command reaches them. -/
structure SameOutside (s t : State) : Prop where
  params : t.params = s.params
  offer : t.offer = s.offer
  edges : t.edges = s.edges
  delivered : t.delivered = s.delivered

/-- The command ended in error with the code `c` (R174, R175): its response is `c << 24`, ERR is 1, ECODE is the first
code, and no register, not DIN, not OUT has changed. -/
structure EndsInError (c : Byte) (s t : State) : Prop where
  response : t.port = .answering (c ++ (0x000000 : BitVec 24))
  err : t.err = true
  ecode : t.ecode = if s.err then s.ecode else c
  regs : t.regs = s.regs
  din : t.din = s.din
  out : t.out = s.out
  outside : SameOutside s t

/-- `B` with `be16(c)` written at the indices `2j`, `2j+1` (R108). -/
def withWordAt (bs : List Byte) (j : Nat) (c : Half) : List Byte :=
  (bs.set (2 * j) (hiOctet c)).set (2 * j + 1) (loOctet c)

/-- The octets of every pair exchanged (R109). -/
def exchangeOctets : List Byte → List Byte
  | h :: l :: rest => l :: h :: exchangeOctets rest
  | [h] => [h]
  | [] => []

/-- The number of octets that R101 sums (R108): all, but for a dropped odd one. -/
def summedOctets (oddPad : Bool) (n : Nat) : Nat := if oddPad then n else n - n % 2

/-- The bytes of a list of words, each `be16` (R52). -/
def octetsOf (ws : List Half) : List Byte := ws.flatMap be16

/-- What the transaction level sees of a state: the command in the unit complete and its response transferred, and no
port, offer or edge. -/
def State.settled (s : State) : State :=
  ((s.takeResponse).withOffer none).withEdges []

/-- The next edge accepts a command word (R71). -/
def State.accepts (s : State) : Option Word :=
  match s.edges with
  | e :: _ => if !e.rst && s.port.outPins.cmdReady && e.cmdValid then some e.cmdWord else none
  | [] => none

/-- The state after `n` edges (the state itself once the model refuses), by the one step. -/
def State.after : Nat → State → Result
  | 0, s => .next s
  | n + 1, s =>
    match step s with
    | .next t => t.after n
    | .fault r => .fault r
    | .refused r => .refused r

/-- The words accepted during the next `n` edges, in order. -/
def State.acceptedIn : Nat → State → List Word
  | 0, _ => []
  | n + 1, s =>
    s.accepts.toList ++
      match step s with
      | .next t => t.acceptedIn n
      | .fault _ => []
      | .refused _ => []

/-- From an edge that left `o` on offer, the host keeps what it offers through edges that accept nothing (R71, R202). -/
def keepsOffers : Option Word → List Edge → Bool
  | _, [] => true
  | some w, e :: rest => (e.offered == some w) && keepsOffers e.offered rest
  | none, e :: rest => keepsOffers e.offered rest

/-- The status a command must end in (R171, R172): its error code under its one condition, and 0x00 otherwise. -/
def expectedStatus (s : State) : Instr → Byte
  | .wrp reg _ => if 0x07 < reg.toNat then 0x02 else 0x00
  | .rdp reg => if 0x0D < reg.toNat then 0x02 else 0x00
  | .dclr => 0x00
  | .dpush _ => if s.params.pmax < s.din.length + 1 then 0x03 else 0x00
  | .dpush2 _ => if s.params.pmax < s.din.length + 2 then 0x03 else 0x00
  | .dzero imm16 => if s.params.pmax < s.din.length + imm16.toNat then 0x03 else 0x00
  | .rdo imm16 => if s.out.length ≤ imm16.toNat then 0x05 else 0x00
  | .cksum => 0x00
  | .bldOuter imm16 => if 65515 < imm16.toNat then 0x04 else 0x00
  | .bldInner => 0x00
  | .bldFrame => 0x00

/-- The status field of a response word (R76). -/
def statusOf (rsp : Word) : Byte := rsp.extractLsb' 24 8

/-- The commands that append to DIN, the only ones that repeat their effect when repeated (R59). -/
def appends : Instr → Bool
  | .dpush _ => true
  | .dpush2 _ => true
  | .dzero _ => true
  | .wrp _ _ => false
  | .rdp _ => false
  | .dclr => false
  | .rdo _ => false
  | .cksum => false
  | .bldOuter _ => false
  | .bldInner => false
  | .bldFrame => false

/-- The commands that only read (R59). -/
def onlyReads : Instr → Bool
  | .rdp _ => true
  | .rdo _ => true
  | .cksum => true
  | .wrp _ _ => false
  | .dclr => false
  | .dpush _ => false
  | .dpush2 _ => false
  | .dzero _ => false
  | .bldOuter _ => false
  | .bldInner => false
  | .bldFrame => false

/-- The host never asserts `rst` in the edges to come. -/
abbrev State.NoReset (s : State) : Prop := ∀ e ∈ s.edges, e.rst = false

/-- A run in which no error happened (R203): STATUS reads 0x0000 at its end. -/
abbrev State.ErrorFree (s : State) : Prop := statusWord s = 0x0000

end Sys2Proof.Machine
end

