-- ==== Sys2Proof/Certificates/Slice0/Obligations.lean ====
section
/-!
DEFINITION. The statements for the provers, in the terms of Sys2Proof/Safety.lean. Each docstring names the rules of
spec/ it formalises; OBLIGATIONS.json lists them.
-/

open Sys2Proof Sys2Proof.Machine

/-! ## Encoding (30_encoding.md) -/

/-- Command words written out from the table of R74, one for each family, decode to the commands they stand for
(vectors of 95_test_vectors.md 2.6 and 2.7), and words with a must-be-zero bit set do not. -/
def Obligations.SpecWordsDecode : Prop :=
  decode 0x01071F90 = .command (.wrp 0x07 0x1F90) ∧ decode 0x01FF1234 = .command (.wrp 0xFF 0x1234) ∧
  decode 0x020A0000 = .command (.rdp 0x0A) ∧ decode 0x03000000 = .command .dclr ∧
  decode 0x040000DE = .command (.dpush 0xDE) ∧ decode 0x0500DEAD = .command (.dpush2 0xDEAD) ∧
  decode 0x06001000 = .command (.dzero 4096) ∧ decode 0x0700000A = .command (.rdo 10) ∧
  decode 0x10000000 = .command .cksum ∧ decode 0x2000FFEB = .command (.bldOuter 65515) ∧
  decode 0x21000000 = .command .bldInner ∧ decode 0x22000000 = .command .bldFrame ∧
  decode 0x00000000 = .illegal .unknownOpcode ∧ decode 0xFFFFFFFF = .illegal .unknownOpcode ∧
  decode 0x02080001 = .illegal .mustBeZero ∧ decode 0x04000100 = .illegal .mustBeZero

/-- No bit of an encoding is dropped: every command, with every operand value its fields admit, is decoded from its
word (R73, R74, R77). -/
def Obligations.DecodeInvertsEncode : Prop := ∀ i : Instr, decode (encode i) = .command i

/-- Two words never decode to one command: the word of a decoded command is the decoded word (R74, D3 "a model's decoder
injective on legal words"). -/
def Obligations.EncodeInvertsDecode : Prop := ∀ (w : Word) (i : Instr), decode w = .command i → encode i = w

/-- R75: every word matches exactly one row of R74 and decodes to a command of that row, or matches none and is
illegal. -/
def Obligations.WordMatchesOneRowOrIsIllegal : Prop :=
  ∀ w : Word,
    (∃ r ∈ rows, r.Matches w ∧ (∀ q ∈ rows, q.Matches w → q = r) ∧
      ∃ i, decode w = .command i ∧ i.mnemonic = r.mnemonic) ∨
    ((∀ r ∈ rows, ¬ r.Matches w) ∧ ∃ why, decode w = .illegal why)

/-- R78: the illegal words are exactly those with an unused opcode and those with a 1 in a must-be-zero field, and an
illegal word that is accepted changes nothing but STATUS and is answered with `E_OPCODE`. -/
def Obligations.IllegalWordsAreAnsweredEOpcode : Prop :=
  ∀ (w : Word) (s : State),
    ((∃ why, decode w = .illegal why) ↔
      w.extractLsb' 24 8 ∉ ([0x01, 0x02, 0x03, 0x04, 0x05, 0x06, 0x07, 0x10, 0x20, 0x21, 0x22] : List Byte) ∨
      (w.extractLsb' 24 8 ∈ ([0x03, 0x10, 0x21, 0x22] : List Byte) ∧ w.extractLsb' 0 24 ≠ 0) ∨
      (w.extractLsb' 24 8 ∈ ([0x05, 0x06, 0x07, 0x20] : List Byte) ∧ w.extractLsb' 16 8 ≠ 0) ∨
      (w.extractLsb' 24 8 = 0x04 ∧ w.extractLsb' 8 16 ≠ 0) ∨
      (w.extractLsb' 24 8 = 0x02 ∧ w.extractLsb' 0 16 ≠ 0)) ∧
    (w.extractLsb' 24 8 = 0x01 → decode w = .command (.wrp (w.extractLsb' 16 8) (w.extractLsb' 0 16))) ∧
    (w.extractLsb' 24 8 = 0x02 → w.extractLsb' 0 16 = 0 → decode w = .command (.rdp (w.extractLsb' 16 8))) ∧
    ((∃ why, decode w = .illegal why) → ∃ t, runWord w s = .next t ∧ EndsInError 0x01 s t)

/-- R86: each pseudo-instruction expands to the commands shown, in that order, and a dotted address is the number with
`a` the most significant octet. That `DLOAD` of no octets is a line, `DCLR` alone, is the model's choice (log 18). -/
def Obligations.PseudoInstructionsExpand : Prop :=
  (∀ n < 2 ^ 32, assemble (.setsrc (.number n)) =
      some [.wrp 0x02 (BitVec.ofNat 16 (n / 65536)), .wrp 0x03 (BitVec.ofNat 16 n)]) ∧
  (∀ n < 2 ^ 32, assemble (.setdst (.number n)) =
      some [.wrp 0x04 (BitVec.ofNat 16 (n / 65536)), .wrp 0x05 (BitVec.ofNat 16 n)]) ∧
  (∀ a < 256, ∀ b < 256, ∀ c < 256, ∀ d < 256,
    assemble (.setsrc (.dotted a b c d)) = assemble (.setsrc (.number (((a * 256 + b) * 256 + c) * 256 + d))) ∧
    assemble (.setdst (.dotted a b c d)) = assemble (.setdst (.number (((a * 256 + b) * 256 + c) * 256 + d)))) ∧
  (∀ octets : List Byte, assemble (.dload (octets.map BitVec.toNat)) = some (.dclr :: octets.map .dpush)) ∧
  (∀ n : Half, assemble (.dfillz n.toNat) = some [.dclr, .dzero n]) ∧
  (∀ k : Half, k.toNat < 65535 → assemble (.rdo16 k.toNat) = some [.rdo k, .rdo (k + 1)])

/-- R85: a command line whose operands fit is assembled to one word, the number its format makes of them, a register
being written by its name (R21) or as a number; a line, also of a pseudo-instruction, one of whose operands does not fit
is refused, never truncated. `RDO16 k` stands for `RDO k` and `RDO k+1` (R86), so `k+1` must fit too. -/
def Obligations.AssembledWordIsTheFormatsNumber : Prop :=
  (∀ r v : Nat, if r < 256 ∧ v < 65536 then
      ∃ i, assemble (.wrp (.numbered r) v) = some [i] ∧ (encode i).toNat = 0x01000000 + r * 65536 + v
    else assemble (.wrp (.numbered r) v) = none) ∧
  (∀ r : Nat, if r < 256 then
      ∃ i, assemble (.rdp (.numbered r)) = some [i] ∧ (encode i).toNat = 0x02000000 + r * 65536
    else assemble (.rdp (.numbered r)) = none) ∧
  (∀ v : Nat, if v < 256 then ∃ i, assemble (.dpush v) = some [i] ∧ (encode i).toNat = 0x04000000 + v
    else assemble (.dpush v) = none) ∧
  (∀ p ∈ ([(Line.dpush2, 0x05000000), (Line.dzero, 0x06000000), (Line.rdo, 0x07000000),
      (Line.bldOuter, 0x20000000)] : List ((Nat → Line) × Nat)), ∀ v : Nat,
    if v < 65536 then ∃ i, assemble (p.1 v) = some [i] ∧ (encode i).toNat = p.2 + v else assemble (p.1 v) = none) ∧
  (∀ p ∈ ([(.param .ttl, 0x00), (.param .proto, 0x01), (.param .srch, 0x02), (.param .srcl, 0x03), (.param .dsth, 0x04),
      (.param .dstl, 0x05), (.param .sport, 0x06), (.param .dport, 0x07), (.view .dlen, 0x08), (.view .olen, 0x09),
      (.view .status, 0x0A), (.view .cap, 0x0B), (.view .cfg, 0x0C), (.view .rev, 0x0D)] : List (RegName × Nat)),
    (∃ i, assemble (.rdp (.named p.1)) = some [i] ∧ (encode i).toNat = 0x02000000 + p.2 * 65536) ∧
    ∀ v : Nat, if v < 65536 then
        ∃ i, assemble (.wrp (.named p.1) v) = some [i] ∧ (encode i).toNat = 0x01000000 + p.2 * 65536 + v
      else assemble (.wrp (.named p.1) v) = none) ∧
  (∀ p ∈ ([(Line.dclr, 0x03000000), (Line.cksum, 0x10000000), (Line.bldInner, 0x21000000),
      (Line.bldFrame, 0x22000000)] : List (Line × Word)), (assemble p.1).map (List.map encode) = some [p.2]) ∧
  (∀ n : Nat, 2 ^ 32 ≤ n → assemble (.setsrc (.number n)) = none ∧ assemble (.setdst (.number n)) = none) ∧
  (∀ a b c d : Nat, 256 ≤ a ∨ 256 ≤ b ∨ 256 ≤ c ∨ 256 ≤ d →
    assemble (.setsrc (.dotted a b c d)) = none ∧ assemble (.setdst (.dotted a b c d)) = none) ∧
  (∀ octets : List Nat, (∃ b ∈ octets, 256 ≤ b) → assemble (.dload octets) = none) ∧
  (∀ n : Nat, 65536 ≤ n → assemble (.dfillz n) = none) ∧
  (∀ k : Nat, 65535 ≤ k → assemble (.rdo16 k) = none)

/-! ## The step: ports, acceptance, reset (30_encoding.md R70 to R72, 70_reset_and_hazards.md) -/

/-- A STEP RUNS THE DECODED COMMAND (R71): at an edge with `rst` = 0 at which a ready unit is offered a word that decodes
to `i`, the step is `exec i` of the state without that edge and without an offer, and then the wait of LAT - 1 edges
(`State.delayed`: no wait for `stall` = 0, else the response waits in the unit). The moment of the state change, the
free LAT and the edge it is counted from are the model's (logs 3, 4, 17). -/
def Obligations.StepRunsDecodedCommand : Prop :=
  ∀ (s : State) (e : Edge) (rest : List Edge) (i : Instr),
    s.edges = e :: rest → e.rst = false → s.port = .ready → e.cmdValid = true →
    (s.offer = none ∨ s.offer = some e.cmdWord) → decode e.cmdWord = .command i →
    ∃ t rsp, exec i ((s.withEdges rest).withOffer none) = .next t ∧ t.port = .answering rsp ∧
      step s = .next (t.delayed e.stall) ∧ t.delayed 0 = t ∧
      ∀ n, t.delayed (n + 1) = t.withPort (.working n rsp)

/-- The very next step of a state into which a word is placed runs that word's command (the model's own way of giving
the machine a command, log 7), and leaves the edges that were to come. -/
def Obligations.PlacedWordRunsNext : Prop :=
  ∀ (s : State) (w : Word) (i : Instr), decode w = .command i →
    step (s.withFetchWord 32 w.toNat) = exec i (s.takeResponse.withOffer none)

/-- R71: a word is accepted exactly at an edge with `rst` = 0, `cmd_valid` = 1 and `cmd_ready` = 1 by a host that keeps
its word; `cmd_ready` is 0 from then on until the response of that command has been transferred, so no word is accepted
in between and at most one command is in the unit. That a unit held after reset does not accept at the first edge with
`rst` = 0 is the model's reading (log 8). -/
def Obligations.ReadyOnlyWithoutCommandInUnit : Prop :=
  (∀ (s t : State) (w : Word), s.accepts = some w → step s = .next t →
    t.port.outPins.cmdReady = false ∧ t.port.pending ≠ none) ∧
  (∀ (s : State) (e : Edge) (rest : List Edge), s.edges = e :: rest →
    (s.accepts = some e.cmdWord ↔ e.rst = false ∧ e.cmdValid = true ∧ s.port = .ready)) ∧
  (∀ (s t : State) (e : Edge) (rest : List Edge) (rsp : Word),
    s.edges = e :: rest → e.rst = false → s.port.pending = some rsp → step s = .next t →
    s.accepts = none ∧
    (t.port.outPins.cmdReady = true ↔ s.port.outPins.rspValid = true ∧ e.rspReady = true))

/-- R72: a response is offered with `rsp_valid` = 1 and held stable, valid bit and word, until the first edge at which
`rsp_ready` = 1; there it is transferred, once; no other edge transfers anything. -/
def Obligations.ResponseHeldUntilTransferred : Prop :=
  ∀ (s t : State) (e : Edge) (rest : List Edge), s.edges = e :: rest → e.rst = false → step s = .next t →
    (∀ rsp, s.port = .answering rsp → e.rspReady = true →
      t.delivered = s.delivered ++ [rsp] ∧ t.port = .ready) ∧
    (∀ rsp, s.port = .answering rsp → e.rspReady = false →
      t.delivered = s.delivered ∧ t.port.outPins = ⟨false, true, some rsp⟩) ∧
    (s.port.outPins.rspValid = false → t.delivered = s.delivered)

/-- R72, R204: the response of an accepted command is offered LAT = `stall` + 1 cycles after acceptance and not before,
whatever the host does with its other pins meanwhile (provided `rst` stays 0 and it keeps the words it offers). The
unit waits for nothing of its own accord. LAT as a free number of the edge, counted from the accepting one, is the
model's (logs 3, 17). -/
def Obligations.ResponseOfferedAfterLatency : Prop :=
  ∀ (s : State) (e : Edge) (waits more : List Edge) (w : Word),
    s.edges = e :: (waits ++ more) → s.accepts = some w → s.offerKept e = true →
    waits.length = e.stall → (∀ x ∈ waits, x.rst = false) → keepsOffers none waits = true →
    (∃ t rsp, s.after (e.stall + 1) = .next t ∧ t.port = .answering rsp ∧ t.edges = more ∧
      t.delivered = s.delivered) ∧
    (∀ k u, 1 ≤ k → k ≤ e.stall → s.after k = .next u → u.port.outPins.rspValid = false)

/-- R7: when no command is executing, the unit's state does not change except by reset: an edge with `rst` = 0 that
accepts nothing leaves all of R20's state as it was. That this holds too while a command's response waits in the unit,
where R72 leaves the moment of the state change open, is the model's choice (log 4). The instance never changes (log 2),
and each edge listed is taken once (log 5). -/
def Obligations.QuietEdgeKeepsArchitecturalState : Prop :=
  ∀ (s t : State), step s = .next t →
    t.params = s.params ∧ t.edges = s.edges.tail ∧
    (s.accepts = none → (∀ e rest, s.edges = e :: rest → e.rst = false) →
      t.regs = s.regs ∧ t.din = s.din ∧ t.out = s.out ∧ t.err = s.err ∧ t.ecode = s.ecode)

/-- R191, R190: at an edge with `rst` = 1 the unit takes the reset state whatever it had been doing; a command in it is
abandoned and no response is ever produced for it. That a response on offer at that very edge is not transferred
either is the model's reading (log 9). -/
def Obligations.ResetEdgeAbandonsCommand : Prop :=
  ∀ (s : State) (e : Edge) (rest : List Edge), s.edges = e :: rest → e.rst = true →
    ∃ t, step s = .next t ∧ t.params = s.params ∧ (∀ r, t.regs.get r = 0x0000) ∧ t.din = [] ∧ t.out = [] ∧
      t.err = false ∧ t.ecode = 0x00 ∧ t.port.outPins = ⟨false, false, none⟩ ∧ t.port.pending = none ∧
      t.delivered = s.delivered ∧ t.edges = rest

/-- R190: "After the first edge with `rst` = 0 the unit drives `cmd_ready` = 1", and that edge itself accepts nothing
(the model's reading, log 8). -/
def Obligations.FirstEdgeAfterResetMakesReady : Prop :=
  ∀ (s : State) (e : Edge) (rest : List Edge), s.edges = e :: rest → e.rst = false → s.port = .held →
    s.offerKept e = true → ∃ t, step s = .next t ∧ t.port.outPins = ⟨true, false, none⟩ ∧ s.accepts = none ∧
      t.regs = s.regs ∧ t.din = s.din ∧ t.out = s.out ∧ t.err = s.err ∧ t.ecode = s.ecode ∧
      t.delivered = s.delivered

/-- R39: the reset values of this instance, seen in the state and through `RDP`; what lies behind the buffers cannot be
observed, because every `RDO` ends in `E_RANGE`. -/
def Obligations.ResetValues : Prop :=
  (∀ r, State.reset.regs.get r = 0x0000) ∧ State.reset.din = [] ∧ State.reset.out = [] ∧
  State.reset.err = false ∧ State.reset.ecode = 0x00 ∧ State.reset.view .dlen = 0 ∧ State.reset.view .olen = 0 ∧
  State.reset.view .status = 0x0000 ∧ State.reset.view .cap = 4096 ∧ State.reset.view .cfg = 0x0000 ∧
  State.reset.view .rev = 0x0001 ∧
  ∀ k : Half, ∃ t, exec (.rdo k) State.reset = .next t ∧ EndsInError 0x05 State.reset t

/-- The unit never stops of its own accord (R170, R204), and the model refuses exactly one thing: an edge, without
reset, at which the host changes or withdraws a word it had offered (R202, U3; the model's reading of U3 is log 10). -/
def Obligations.StepRefusesOnlyUnstableOffer : Prop :=
  ∀ s : State, (∀ f, step s ≠ .fault f) ∧ (∀ r, step s = .refused r → r = .unstableOffer) ∧
    (step s = .refused .unstableOffer ↔
      ∃ e rest w, s.edges = e :: rest ∧ e.rst = false ∧ s.offer = some w ∧
        ¬ (e.cmdValid = true ∧ e.cmdWord = w))

/-! ## Invariants (10_state.md R38) -/

/-- The reset state meets the invariant of R38. -/
def Obligations.ResetMeetsInvariant : Prop := State.reset.Inv

/-- R38: every step keeps (a) to (e) and the legality of the instance, from every state that has them; under them the
read-only views DLEN and OLEN are the true lengths; and (f) ERR never goes from 1 to 0 but at an edge with `rst` = 1. -/
def Obligations.StepKeepsInvariant : Prop :=
  State.reset.Inv ∧
  (∀ s t : State, s.Inv → step s = .next t → t.Inv) ∧
  (∀ s : State, s.Inv → (s.view .dlen).toNat = s.din.length ∧ (s.view .olen).toNat = s.out.length) ∧
  (∀ s t : State, step s = .next t → s.err = true → t.err = false →
    ∃ e rest, s.edges = e :: rest ∧ e.rst = true)

/-! ## Host access commands (43_host_access.md) -/

/-- R150: `WRP` writes one parameter register, of which `TTL` and `PROTO` keep 8 bits, and nothing else; `E_REG` for
every other index. -/
def Obligations.WrpWritesOneRegister : Prop :=
  ∀ (reg : Byte) (imm16 : Half) (s : State),
    encode (.wrp reg imm16) = 0x01000000 ||| (reg.setWidth 32 <<< 16) ||| imm16.setWidth 32 ∧
    ∃ t, exec (.wrp reg imm16) s = .next t ∧
      (0x07 < reg.toNat → EndsInError 0x02 s t) ∧
      (reg.toNat ≤ 0x07 → EndsOk 0x0000 s t ∧ t.din = s.din ∧ t.out = s.out ∧ SameOutside s t ∧
        ∀ r : ParamReg, t.regs.get r = if indexOfReg (.param r) = reg then
            (if reg = 0x00 ∨ reg = 0x01 then imm16 &&& 0x00FF else imm16)
          else s.regs.get r)

/-- R151: `RDP` responds the stored value or the view, and changes nothing; `E_REG` for the unimplemented indices. -/
def Obligations.RdpRespondsRegisterOrView : Prop :=
  ∀ (reg : Byte) (s : State), s.Inv →
    encode (.rdp reg) = 0x02000000 ||| (reg.setWidth 32 <<< 16) ∧
    ∃ t, exec (.rdp reg) s = .next t ∧
      (0x0D < reg.toNat → EndsInError 0x02 s t) ∧
      (reg.toNat ≤ 0x0D → ∃ v, EndsOk v s t ∧ t.regs = s.regs ∧ t.din = s.din ∧ t.out = s.out ∧ SameOutside s t ∧
        (∀ r : ParamReg, indexOfReg (.param r) = reg → v = s.regs.get r) ∧
        (reg = 0x08 → v.toNat = s.din.length) ∧ (reg = 0x09 → v.toNat = s.out.length) ∧
        (reg = 0x0A → v = s.ecode ++ (0b0000000 : BitVec 7) ++ BitVec.ofBool s.err) ∧
        (reg = 0x0B → v.toNat = s.params.pmax) ∧ (reg = 0x0C → v = if s.params.oddPad then 0x0001 else 0x0000) ∧
        (reg = 0x0D → v = 0x0001))

/-- R152: `DCLR` empties DIN and touches nothing else. -/
def Obligations.DclrEmptiesDin : Prop :=
  ∀ s : State, encode .dclr = 0x03000000 ∧ ∃ t, exec .dclr s = .next t ∧ EndsOk 0x0000 s t ∧ t.din = [] ∧
    t.regs = s.regs ∧ t.out = s.out ∧ SameOutside s t

/-- R153: `DPUSH` appends its octet, or ends in `E_OVF` when DIN is full. -/
def Obligations.DpushAppendsOctet : Prop :=
  ∀ (imm8 : Byte) (s : State), encode (.dpush imm8) = 0x04000000 ||| imm8.setWidth 32 ∧
    ∃ t, exec (.dpush imm8) s = .next t ∧
      (s.din.length + 1 > s.params.pmax → EndsInError 0x03 s t) ∧
      (s.din.length + 1 ≤ s.params.pmax → EndsOk 0x0000 s t ∧ t.din = s.din ++ [imm8] ∧ t.regs = s.regs ∧
        t.out = s.out ∧ SameOutside s t)

/-- R154: `DPUSH2` appends `imm16[15:8]` and then `imm16[7:0]`, both or neither; when both fit it does what the two
`DPUSH`es do; and from an even DLEN the two octets are one checksum word equal to `imm16`. -/
def Obligations.Dpush2AppendsBothOrNeither : Prop :=
  ∀ (imm16 : Half) (s : State), encode (.dpush2 imm16) = 0x05000000 ||| imm16.setWidth 32 ∧
    ∃ t, exec (.dpush2 imm16) s = .next t ∧
      (s.din.length + 2 > s.params.pmax → EndsInError 0x03 s t) ∧
      (s.din.length + 2 ≤ s.params.pmax → EndsOk 0x0000 s t ∧
        t.din = s.din ++ [imm16.extractLsb' 8 8, imm16.extractLsb' 0 8] ∧ t.regs = s.regs ∧ t.out = s.out ∧
        SameOutside s t ∧
        (∃ u, exec (.dpush (imm16.extractLsb' 8 8)) s = .next u ∧ exec (.dpush (imm16.extractLsb' 0 8)) u = .next t) ∧
        (s.din.length % 2 = 0 → ∀ b, summedWords b t.din = summedWords b s.din ++ [imm16]))

/-- R155: `DZERO` appends its count of zero octets, all or none, the sum being of naturals. -/
def Obligations.DzeroAppendsZeros : Prop :=
  ∀ (imm16 : Half) (s : State), encode (.dzero imm16) = 0x06000000 ||| imm16.setWidth 32 ∧
    ∃ t, exec (.dzero imm16) s = .next t ∧
      (s.din.length + imm16.toNat > s.params.pmax → EndsInError 0x03 s t) ∧
      (s.din.length + imm16.toNat ≤ s.params.pmax → EndsOk 0x0000 s t ∧ t.regs = s.regs ∧ t.out = s.out ∧
        SameOutside s t ∧ t.din.length = s.din.length + imm16.toNat ∧ s.din <+: t.din ∧
        ∀ k, s.din.length ≤ k → k < t.din.length → t.din[k]? = some 0x00)

/-- R156: `RDO` responds the octet at its index, and changes nothing; `E_RANGE` at and beyond OLEN. -/
def Obligations.RdoRespondsOctet : Prop :=
  ∀ (imm16 : Half) (s : State), encode (.rdo imm16) = 0x07000000 ||| imm16.setWidth 32 ∧
    ∃ t, exec (.rdo imm16) s = .next t ∧
      (s.out.length ≤ imm16.toNat → EndsInError 0x05 s t) ∧
      (∀ h : imm16.toNat < s.out.length, EndsOk ((0x00 : Byte) ++ s.out[imm16.toNat]) s t ∧
        t.regs = s.regs ∧ t.din = s.din ∧ t.out = s.out ∧ SameOutside s t)

/-! ## The checksum (40_checksum.md) -/

/-- R102: `CKSUM` responds the checksum of DIN and changes nothing. -/
def Obligations.CksumRespondsChecksumOfDin : Prop :=
  ∀ s : State, encode .cksum = 0x10000000 ∧ ∃ t, exec .cksum s = .next t ∧
    EndsOk (cksum s.params.oddPad s.din) s t ∧ t.regs = s.regs ∧ t.din = s.din ∧ t.out = s.out ∧ SameOutside s t

/-- R100 as naturals: `oc_add(a, b) = a + b` when `a + b <= 65535`, and `a + b - 65535` when `a + b >= 65536`. -/
def Obligations.OcAddFoldsTheCarry : Prop :=
  ∀ a b : Half, (ocAdd a b).toNat =
    if a.toNat + b.toNat ≤ 65535 then a.toNat + b.toNat else a.toNat + b.toNat - 65535

/-- R105: `oc_add` is commutative and associative, 0x0000 is its identity, 0xFFFF is one on every non-zero operand and
none on 0x0000; so the folded sum depends only on the multiset of the words. -/
def Obligations.OcAddIsCommutativeMonoid : Prop :=
  (∀ a b : Half, ocAdd a b = ocAdd b a) ∧ (∀ a b c : Half, ocAdd (ocAdd a b) c = ocAdd a (ocAdd b c)) ∧
  (∀ a : Half, ocAdd a 0x0000 = a) ∧ (∀ a : Half, a ≠ 0x0000 → ocAdd a 0xFFFF = a) ∧
  ocAdd 0x0000 0xFFFF = 0xFFFF ∧
  (∀ (b : Bool) (x y : List Byte), (summedWords b x).Perm (summedWords b y) → foldedSum b x = foldedSum b y)

/-- R104: the closed form of the folded sum and of the checksum, and when they take their extreme values. -/
def Obligations.ChecksumClosedForm : Prop :=
  ∀ (b : Bool) (bs : List Byte), let total := wideSum (summedWords b bs)
    (foldedSum b bs).toNat = (if total = 0 then 0 else (total - 1) % 65535 + 1) ∧
    (cksum b bs).toNat = 0xFFFF - (foldedSum b bs).toNat ∧
    (foldedSum b bs = 0xFFFF ↔ 0 < total ∧ 65535 ∣ total) ∧
    (cksum b bs = 0xFFFF ↔ total = 0) ∧
    (cksum b bs = 0x0000 ↔ 0 < total ∧ 65535 ∣ total)

/-- R107: adding all words in a wide accumulator and folding at the end gives the same value; a 32-bit accumulator holds
65537 words; and the largest sequence the unit sums has at most 32758. -/
def Obligations.DeferredFoldGivesSameSum : Prop :=
  (∀ ws : List Half, deferredFold (wideSum ws) = (ws.foldl ocAdd 0x0000).toNat) ∧
  (∀ ws : List Half, ws.length ≤ 65537 → wideSum ws < 2 ^ 32) ∧
  (∀ (s : State) (ck : Half), s.Inv →
    (summedWords s.params.oddPad (innerBytes s.regs.sport s.regs.dport s.din ck)).length ≤ 32758)

/-- R113: any tree of `oc_add` elements over the words that R101 adds, in any order, idle lanes fed 0x0000, one tree for
all or one for each cycle with a running accumulator, and also a wide adder folded later, computes `cksum`. -/
def Obligations.AdderTreesComputeChecksum : Prop :=
  ∀ (b : Bool) (bs : List Byte) (idle : Nat),
    (∀ tree : AdderTree, tree.fed.Perm (summedWords b bs ++ List.replicate idle 0x0000) →
      ~~~ tree.output = cksum b bs ∧ ~~~ BitVec.ofNat 16 (deferredFold (wideSum tree.fed)) = cksum b bs) ∧
    (∀ cycles : List AdderTree,
      (cycles.flatMap AdderTree.fed).Perm (summedWords b bs ++ List.replicate idle 0x0000) →
      ~~~ accumulate cycles = cksum b bs)

/-- R110: the checksum of the empty sequence and of every all-zero one is 0xFFFF, for either `ODD_PAD`. -/
def Obligations.ZeroInputChecksum : Prop :=
  ∀ b : Bool, cksum b [] = 0xFFFF ∧ ∀ m : Nat, cksum b (List.replicate m 0x00) = 0xFFFF

/-- R111: of an odd-length sequence the last octet has no influence when it is dropped, and is paired with 0x00 when it
is padded; so two sequences that differ only there have one checksum, and that of a single octet is 0xFFFF. -/
def Obligations.OddLastOctetDroppedOrPadded : Prop :=
  ∀ (bs : List Byte) (x y : Byte), bs.length % 2 = 0 →
    cksum false (bs ++ [x]) = cksum false bs ∧ cksum false (bs ++ [x]) = cksum false (bs ++ [y]) ∧
    cksum true (bs ++ [x]) = cksum true (bs ++ [x, 0x00]) ∧ cksum false [x] = 0xFFFF

/-- R108, the self-verification law, for either `ODD_PAD` and for even and odd lengths. -/
def Obligations.ChecksumVerifiesItself : Prop :=
  ∀ (b : Bool) (bs : List Byte) (j : Nat),
    2 * j + 1 < summedOctets b bs.length → bs[2 * j]? = some 0x00 → bs[2 * j + 1]? = some 0x00 →
    cksum b (withWordAt bs j (cksum b bs)) = 0x0000

/-- R109: exchanging the octets of every pair exchanges the octets of the checksum, and so does reversing the whole
sequence; the checksum changes exactly when its two octets differ. -/
def Obligations.OctetExchangeExchangesChecksum : Prop :=
  ∀ (b : Bool) (bs : List Byte), bs.length % 2 = 0 →
    cksum b (exchangeOctets bs) = loOctet (cksum b bs) ++ hiOctet (cksum b bs) ∧
    cksum b bs.reverse = loOctet (cksum b bs) ++ hiOctet (cksum b bs) ∧
    (cksum b (exchangeOctets bs) ≠ cksum b bs ↔ hiOctet (cksum b bs) ≠ loOctet (cksum b bs))

/-- R115: exchanging whole pairs of octets never changes the checksum; and two sequences that are no palindromes, with
a checksum of two equal octets, show that exchanging the octets of each pair, or reversing, need not change it
either. -/
def Obligations.PairOrderDoesNotMatter : Prop :=
  (∀ (b : Bool) (x y : List Half), x.Perm y → cksum b (octetsOf x) = cksum b (octetsOf y)) ∧
  cksum false [0x00, 0x01, 0x00, 0x02] = 0xFFFC ∧ cksum false [0x00, 0x02, 0x00, 0x01] = 0xFFFC ∧
  ∀ x ∈ ([[0x01, 0x01, 0x02, 0x02], [0x02, 0x02, 0x01, 0x01]] : List (List Byte)),
    x.reverse ≠ x ∧ cksum false x = 0xFCFC ∧ cksum false (exchangeOctets x) = 0xFCFC ∧ cksum false x.reverse = 0xFCFC

/-! ## The builders (41_header_builder.md, 42_frame_constructor.md) -/

/-- R122: `BLD.OUTER` replaces OUT by the outer header for its length, or ends in `E_LEN` when the total length does not
fit 16 bits. -/
def Obligations.BldOuterBuildsOuterHeader : Prop :=
  ∀ (imm16 : Half) (s : State), encode (.bldOuter imm16) = 0x20000000 ||| imm16.setWidth 32 ∧
    ∃ t, exec (.bldOuter imm16) s = .next t ∧
      (20 + imm16.toNat > 65535 → EndsInError 0x04 s t) ∧
      (20 + imm16.toNat ≤ 65535 → EndsOk 20 s t ∧ t.regs = s.regs ∧ t.din = s.din ∧ SameOutside s t ∧
        t.out.length = 20 ∧
        t.out = buildOuter s.params imm16.toNat (s.regs.ttl.extractLsb' 0 8) (s.regs.proto.extractLsb' 0 8)
          (s.regs.srch ++ s.regs.srcl) (s.regs.dsth ++ s.regs.dstl))

/-- R125: `BLD.INNER` replaces OUT by the inner header and the payload. -/
def Obligations.BldInnerBuildsInnerHeader : Prop :=
  ∀ s : State, s.Inv → encode .bldInner = 0x21000000 ∧
    ∃ t v, exec .bldInner s = .next t ∧ EndsOk v s t ∧ v.toNat = 8 + s.din.length ∧ t.regs = s.regs ∧
      t.din = s.din ∧ SameOutside s t ∧ t.out.length = 8 + s.din.length ∧
      t.out = buildInner s.params s.regs.sport s.regs.dport s.din

/-- R141: `BLD.FRAME` replaces OUT by the frame. -/
def Obligations.BldFrameBuildsFrame : Prop :=
  ∀ s : State, s.Inv → encode .bldFrame = 0x22000000 ∧
    ∃ t v, exec .bldFrame s = .next t ∧ EndsOk v s t ∧ v.toNat = 28 + s.din.length ∧ t.regs = s.regs ∧
      t.din = s.din ∧ SameOutside s t ∧ t.out.length = 28 + s.din.length ∧
      t.out = buildFrame s.params (s.regs.ttl.extractLsb' 0 8) (s.regs.proto.extractLsb' 0 8)
        (s.regs.srch ++ s.regs.srcl) (s.regs.dsth ++ s.regs.dstl) s.regs.sport s.regs.dport s.din

/-- R81: the outer header, octet by octet and as checksum words. -/
def Obligations.OuterHeaderLayout : Prop :=
  ∀ (p : Params) (following : Nat) (ttl proto : Byte) (srch srcl dsth dstl : Half), 20 + following ≤ 65535 →
    ∃ (total c : Half), total.toNat = 20 + following ∧
      c = cksum p.oddPad (outerBytes p following ttl proto (srch ++ srcl) (dsth ++ dstl) 0x0000) ∧
      buildOuter p following ttl proto (srch ++ srcl) (dsth ++ dstl) =
        [p.ipVersion ++ p.ipIhl, p.ipTos, hiOctet total, loOctet total, hiOctet p.ipIdent, loOctet p.ipIdent,
          hiOctet p.ipFlagsFrag, loOctet p.ipFlagsFrag, ttl, proto, hiOctet c, loOctet c, hiOctet srch, loOctet srch,
          hiOctet srcl, loOctet srcl, hiOctet dsth, loOctet dsth, hiOctet dstl, loOctet dstl] ∧
      ∀ b, summedWords b (buildOuter p following ttl proto (srch ++ srcl) (dsth ++ dstl)) =
        [p.ipVersion ++ p.ipIhl ++ p.ipTos, total, p.ipIdent, p.ipFlagsFrag, ttl ++ proto, c, srch, srcl, dsth, dstl]

/-- R82, R83: the inner header octet by octet, followed directly by the payload; and the frame, the outer header for
`L = 8 + P` followed by it. -/
def Obligations.InnerHeaderAndFrameLayout : Prop :=
  ∀ (p : Params) (ttl proto : Byte) (src dst : Word) (sp dp : Half) (pay : List Byte), 28 + pay.length ≤ 65535 →
    ∃ (len c : Half), len.toNat = 8 + pay.length ∧ c = cksum p.oddPad (innerBytes sp dp pay 0x0000) ∧
      buildInner p sp dp pay =
        [hiOctet sp, loOctet sp, hiOctet dp, loOctet dp, hiOctet len, loOctet len, hiOctet c, loOctet c] ++ pay ∧
      buildFrame p ttl proto src dst sp dp pay =
        buildOuter p (8 + pay.length) ttl proto src dst ++ buildInner p sp dp pay ∧
      (buildFrame p ttl proto src dst sp dp pay).drop 28 = pay

/-- R129 (a), (b), (c), (e): what the builders produce verifies to 0x0000, for every payload length and either
`ODD_PAD`; and outside the checksum field it does not depend on the checksum. R120 and R123 define no header for a
length that does not fit 16 bits: what is said of those lengths rests on log 16. -/
def Obligations.BuiltHeadersVerify : Prop :=
  ∀ (p : Params) (following : Nat) (ttl proto : Byte) (src dst : Word) (sp dp : Half) (pay : List Byte),
    cksum p.oddPad (buildOuter p following ttl proto src dst) = 0x0000 ∧
    cksum p.oddPad (buildInner p sp dp pay) = 0x0000 ∧
    cksum p.oddPad ((buildFrame p ttl proto src dst sp dp pay).take 20) = 0x0000 ∧
    cksum p.oddPad ((buildFrame p ttl proto src dst sp dp pay).drop 20) = 0x0000 ∧
    (∀ k, k ≠ 10 → k ≠ 11 →
      (buildOuter p following ttl proto src dst)[k]? = (outerBytes p following ttl proto src dst 0x0000)[k]?) ∧
    (∀ k, k ≠ 6 → k ≠ 7 → (buildInner p sp dp pay)[k]? = (innerBytes sp dp pay 0x0000)[k]?)

/-- R142: the frame's length and its two length fields are coherent, for every payload that fits. -/
def Obligations.FrameLengthsCoherent : Prop :=
  ∀ (p : Params) (ttl proto : Byte) (src dst : Word) (sp dp : Half) (pay : List Byte), 28 + pay.length ≤ 65535 →
    let frame := buildFrame p ttl proto src dst sp dp pay
    frame.length = 20 + 8 + pay.length ∧
    ∃ b2 b3 b24 b25 : Byte, frame[2]? = some b2 ∧ frame[3]? = some b3 ∧ frame[24]? = some b24 ∧
      frame[25]? = some b25 ∧ b2.toNat * 256 + b3.toNat = 20 + 8 + pay.length ∧
      b24.toNat * 256 + b25.toNat = 8 + pay.length ∧
      b2.toNat * 256 + b3.toNat = 20 + (b24.toNat * 256 + b25.toNat)

/-- R143: OUT after `BLD.FRAME` is OUT after `BLD.OUTER (8 + DLEN)` followed by OUT after `BLD.INNER`. -/
def Obligations.FrameIsOuterThenInner : Prop :=
  ∀ s : State, s.Inv → ∃ f o n, exec .bldFrame s = .next f ∧
    exec (.bldOuter (BitVec.ofNat 16 (8 + s.din.length))) s = .next o ∧ exec .bldInner s = .next n ∧
    f.out = o.out ++ n.out

/-! ## What holds of every command -/

/-- R172, R76: every command, in every state, ends with exactly one response word, whose status is the error code of the
command's one condition, or 0x00; bits 23:16 are 0, and so is the data of an error. -/
def Obligations.EveryCommandAnswersItsStatus : Prop :=
  ∀ (i : Instr) (s : State), ∃ t rsp, exec i s = .next t ∧ t.port = .answering rsp ∧
    statusOf rsp = expectedStatus s i ∧ rsp.extractLsb' 16 8 = 0x00 ∧
    (expectedStatus s i ≠ 0x00 → rsp.extractLsb' 0 16 = 0x0000)

/-- R175: a word that ends in error changes no register, not DIN, not OUT; ECODE keeps the first code, ERR becomes 1;
and a word that ends OK leaves STATUS as it was. -/
def Obligations.ErrorChangesOnlyStatus : Prop :=
  ∀ (w : Word) (s : State), ∃ t rsp, runWord w s = .next t ∧ t.port = .answering rsp ∧
    (statusOf rsp ≠ 0x00 → EndsInError (statusOf rsp) s t) ∧
    (statusOf rsp = 0x00 → t.err = s.err ∧ t.ecode = s.ecode ∧ SameOutside s t)

/-- The writes of the matrix R40: parameter registers by `WRP` alone (R22), DIN by `DCLR` and the appends alone (R34,
R66), OUT by the build commands alone (R35, R66). -/
def Obligations.OnlyItsCommandsWriteEachState : Prop :=
  ∀ (i : Instr) (s t : State), exec i s = .next t →
    (t.regs ≠ s.regs → ∃ reg imm16, i = .wrp reg imm16) ∧
    (t.din ≠ s.din → i = .dclr ∨ appends i = true) ∧
    (t.out ≠ s.out → (∃ imm16, i = .bldOuter imm16) ∨ i = .bldInner ∨ i = .bldFrame)

/-- The reads of the matrix R40, for the build commands and `CKSUM`: `BLD.OUTER` reads neither DIN nor the ports, and
`BLD.INNER` neither `TTL`, `PROTO` nor the addresses (R126); none reads what OUT held before (R127) and `CKSUM` reads no
register (R112). -/
def Obligations.BuildsReadOnlyTheirOperands : Prop :=
  ∀ (s : State) (g : Regs) (bs : List Byte),
    (∀ imm16 t, exec (.bldOuter imm16) s = .next t →
      exec (.bldOuter imm16) { s with din := bs, regs := { s.regs with sport := g.sport, dport := g.dport } } =
        .next { t with din := bs, regs := { s.regs with sport := g.sport, dport := g.dport } }) ∧
    (∀ t, exec .bldInner s = .next t →
      exec .bldInner { s with regs := { g with sport := s.regs.sport, dport := s.regs.dport } } =
        .next { t with regs := { g with sport := s.regs.sport, dport := s.regs.dport } }) ∧
    (∀ t, exec .bldInner s = .next t → exec .bldInner { s with out := bs } = .next t) ∧
    (∀ t, exec .bldFrame s = .next t → exec .bldFrame { s with out := bs } = .next t) ∧
    (∀ imm16 t, imm16.toNat ≤ 65515 → exec (.bldOuter imm16) s = .next t →
      exec (.bldOuter imm16) { s with out := bs } = .next t) ∧
    (∀ t, exec .cksum s = .next t →
      exec .cksum { s with regs := g, out := bs } = .next { t with regs := g, out := bs })

/-- R177, R29: an error that happened before changes the meaning of no later command: from two states that differ only in
STATUS every command does the same to registers, DIN and OUT, and answers the same, unless it reads STATUS. -/
def Obligations.EarlierErrorsDoNotMatter : Prop :=
  ∀ (i : Instr) (s : State) (err : Bool) (ecode : Byte), ∃ t u,
    exec i s = .next t ∧ exec i { s with err := err, ecode := ecode } = .next u ∧
    u.regs = t.regs ∧ u.din = t.din ∧ u.out = t.out ∧ (i ≠ .rdp 0x0A → u.port = t.port)

/-- R59: the reading commands change nothing when they end OK; they, `WRP`, `DCLR` and the builds may be repeated without
further effect and with the same response; an append that fits twice appends twice. -/
def Obligations.OnlyAppendsRepeatTheirEffect : Prop :=
  (∀ (i : Instr) (s t : State), onlyReads i = true → exec i s = .next t → expectedStatus s i = 0x00 →
    t = s.withPort t.port) ∧
  (∀ (i : Instr) (s t : State), appends i = false → exec i s = .next t → expectedStatus s i = 0x00 →
    exec i t = .next t) ∧
  (∀ (i : Instr) (s t u : State), appends i = true → exec i s = .next t → exec i t = .next u →
    expectedStatus s i = 0x00 → expectedStatus t i = 0x00 →
    ∃ bs, t.din = s.din ++ bs ∧ u.din = s.din ++ bs ++ bs ∧ (bs = [] → i = .dzero 0))

/-! ## The transaction level (00_scope.md R6, 20_memory.md R61, 70_reset_and_hazards.md R203) -/

/-- R6: each edge without reset, seen at the transaction level, is one whole transaction of the word it accepts, or
nothing at all. -/
def Obligations.EdgeRefinesTransaction : Prop :=
  ∀ (s t : State) (e : Edge) (rest : List Edge), s.edges = e :: rest → e.rst = false → step s = .next t →
    (∀ w, s.accepts = some w → transaction w s.settled = .next t.settled) ∧
    (s.accepts = none → t.settled = s.settled)

/-- R61: without reset, any number of edges, with any latencies and any pace of the host, has exactly the effects and the
responses of executing the accepted words one after another in the order of acceptance. -/
def Obligations.EdgesRefineRunOfAcceptedWords : Prop :=
  ∀ (n : Nat) (s t : State), s.NoReset → s.after n = .next t →
    runWords (s.acceptedIn n) s.settled = .next t.settled

/-- R203, R72: every list of words is run to its end, with exactly one response for each word, in order; and no error
happened ("every `r_i` has `status` = 0x00") exactly if STATUS = 0x0000 at the end. -/
def Obligations.RunAnswersEveryWord : Prop :=
  ∀ (ws : List Word) (s : State), s.Inv → s.ErrorFree →
    ∃ t rs, runWords ws s = .next t ∧ t.Inv ∧ t.delivered = s.delivered ++ rs ∧ rs.length = ws.length ∧
      (t.ErrorFree ↔ ∀ r ∈ rs, statusOf r = 0x00)
end

