-- ==== Sys2Proof/Laws/State.lean ====
section
/-!
SUPPORT. One lemma for each field and each update of the state, so that no proof unfolds an update.
-/

namespace Sys2Proof.Machine

@[simp] theorem State.withRegs_params (s : State) (g : Regs) : (s.withRegs g).params = s.params := rfl
@[simp] theorem State.withRegs_regs (s : State) (g : Regs) : (s.withRegs g).regs = g := rfl
@[simp] theorem State.withRegs_din (s : State) (g : Regs) : (s.withRegs g).din = s.din := rfl
@[simp] theorem State.withRegs_out (s : State) (g : Regs) : (s.withRegs g).out = s.out := rfl
@[simp] theorem State.withRegs_err (s : State) (g : Regs) : (s.withRegs g).err = s.err := rfl
@[simp] theorem State.withRegs_ecode (s : State) (g : Regs) : (s.withRegs g).ecode = s.ecode := rfl
@[simp] theorem State.withRegs_port (s : State) (g : Regs) : (s.withRegs g).port = s.port := rfl
@[simp] theorem State.withRegs_offer (s : State) (g : Regs) : (s.withRegs g).offer = s.offer := rfl
@[simp] theorem State.withRegs_edges (s : State) (g : Regs) : (s.withRegs g).edges = s.edges := rfl
@[simp] theorem State.withRegs_delivered (s : State) (g : Regs) : (s.withRegs g).delivered = s.delivered := rfl

@[simp] theorem State.withDin_params (s : State) (bs : List Byte) : (s.withDin bs).params = s.params := rfl
@[simp] theorem State.withDin_regs (s : State) (bs : List Byte) : (s.withDin bs).regs = s.regs := rfl
@[simp] theorem State.withDin_din (s : State) (bs : List Byte) : (s.withDin bs).din = bs := rfl
@[simp] theorem State.withDin_out (s : State) (bs : List Byte) : (s.withDin bs).out = s.out := rfl
@[simp] theorem State.withDin_err (s : State) (bs : List Byte) : (s.withDin bs).err = s.err := rfl
@[simp] theorem State.withDin_ecode (s : State) (bs : List Byte) : (s.withDin bs).ecode = s.ecode := rfl
@[simp] theorem State.withDin_port (s : State) (bs : List Byte) : (s.withDin bs).port = s.port := rfl
@[simp] theorem State.withDin_offer (s : State) (bs : List Byte) : (s.withDin bs).offer = s.offer := rfl
@[simp] theorem State.withDin_edges (s : State) (bs : List Byte) : (s.withDin bs).edges = s.edges := rfl
@[simp] theorem State.withDin_delivered (s : State) (bs : List Byte) : (s.withDin bs).delivered = s.delivered := rfl

@[simp] theorem State.withOut_params (s : State) (bs : List Byte) : (s.withOut bs).params = s.params := rfl
@[simp] theorem State.withOut_regs (s : State) (bs : List Byte) : (s.withOut bs).regs = s.regs := rfl
@[simp] theorem State.withOut_din (s : State) (bs : List Byte) : (s.withOut bs).din = s.din := rfl
@[simp] theorem State.withOut_out (s : State) (bs : List Byte) : (s.withOut bs).out = bs := rfl
@[simp] theorem State.withOut_err (s : State) (bs : List Byte) : (s.withOut bs).err = s.err := rfl
@[simp] theorem State.withOut_ecode (s : State) (bs : List Byte) : (s.withOut bs).ecode = s.ecode := rfl
@[simp] theorem State.withOut_port (s : State) (bs : List Byte) : (s.withOut bs).port = s.port := rfl
@[simp] theorem State.withOut_offer (s : State) (bs : List Byte) : (s.withOut bs).offer = s.offer := rfl
@[simp] theorem State.withOut_edges (s : State) (bs : List Byte) : (s.withOut bs).edges = s.edges := rfl
@[simp] theorem State.withOut_delivered (s : State) (bs : List Byte) : (s.withOut bs).delivered = s.delivered := rfl

@[simp] theorem State.withPort_params (s : State) (p : Port) : (s.withPort p).params = s.params := rfl
@[simp] theorem State.withPort_regs (s : State) (p : Port) : (s.withPort p).regs = s.regs := rfl
@[simp] theorem State.withPort_din (s : State) (p : Port) : (s.withPort p).din = s.din := rfl
@[simp] theorem State.withPort_out (s : State) (p : Port) : (s.withPort p).out = s.out := rfl
@[simp] theorem State.withPort_err (s : State) (p : Port) : (s.withPort p).err = s.err := rfl
@[simp] theorem State.withPort_ecode (s : State) (p : Port) : (s.withPort p).ecode = s.ecode := rfl
@[simp] theorem State.withPort_port (s : State) (p : Port) : (s.withPort p).port = p := rfl
@[simp] theorem State.withPort_offer (s : State) (p : Port) : (s.withPort p).offer = s.offer := rfl
@[simp] theorem State.withPort_edges (s : State) (p : Port) : (s.withPort p).edges = s.edges := rfl
@[simp] theorem State.withPort_delivered (s : State) (p : Port) : (s.withPort p).delivered = s.delivered := rfl

@[simp] theorem State.withOffer_params (s : State) (o : Option Word) : (s.withOffer o).params = s.params := rfl
@[simp] theorem State.withOffer_regs (s : State) (o : Option Word) : (s.withOffer o).regs = s.regs := rfl
@[simp] theorem State.withOffer_din (s : State) (o : Option Word) : (s.withOffer o).din = s.din := rfl
@[simp] theorem State.withOffer_out (s : State) (o : Option Word) : (s.withOffer o).out = s.out := rfl
@[simp] theorem State.withOffer_err (s : State) (o : Option Word) : (s.withOffer o).err = s.err := rfl
@[simp] theorem State.withOffer_ecode (s : State) (o : Option Word) : (s.withOffer o).ecode = s.ecode := rfl
@[simp] theorem State.withOffer_port (s : State) (o : Option Word) : (s.withOffer o).port = s.port := rfl
@[simp] theorem State.withOffer_offer (s : State) (o : Option Word) : (s.withOffer o).offer = o := rfl
@[simp] theorem State.withOffer_edges (s : State) (o : Option Word) : (s.withOffer o).edges = s.edges := rfl
@[simp] theorem State.withOffer_delivered (s : State) (o : Option Word) : (s.withOffer o).delivered = s.delivered := rfl

@[simp] theorem State.withEdges_params (s : State) (es : List Edge) : (s.withEdges es).params = s.params := rfl
@[simp] theorem State.withEdges_regs (s : State) (es : List Edge) : (s.withEdges es).regs = s.regs := rfl
@[simp] theorem State.withEdges_din (s : State) (es : List Edge) : (s.withEdges es).din = s.din := rfl
@[simp] theorem State.withEdges_out (s : State) (es : List Edge) : (s.withEdges es).out = s.out := rfl
@[simp] theorem State.withEdges_err (s : State) (es : List Edge) : (s.withEdges es).err = s.err := rfl
@[simp] theorem State.withEdges_ecode (s : State) (es : List Edge) : (s.withEdges es).ecode = s.ecode := rfl
@[simp] theorem State.withEdges_port (s : State) (es : List Edge) : (s.withEdges es).port = s.port := rfl
@[simp] theorem State.withEdges_offer (s : State) (es : List Edge) : (s.withEdges es).offer = s.offer := rfl
@[simp] theorem State.withEdges_edges (s : State) (es : List Edge) : (s.withEdges es).edges = es := rfl
@[simp] theorem State.withEdges_delivered (s : State) (es : List Edge) : (s.withEdges es).delivered = s.delivered := rfl

@[simp] theorem State.withDelivered_params (s : State) (ws : List Word) : (s.withDelivered ws).params = s.params := rfl
@[simp] theorem State.withDelivered_regs (s : State) (ws : List Word) : (s.withDelivered ws).regs = s.regs := rfl
@[simp] theorem State.withDelivered_din (s : State) (ws : List Word) : (s.withDelivered ws).din = s.din := rfl
@[simp] theorem State.withDelivered_out (s : State) (ws : List Word) : (s.withDelivered ws).out = s.out := rfl
@[simp] theorem State.withDelivered_err (s : State) (ws : List Word) : (s.withDelivered ws).err = s.err := rfl
@[simp] theorem State.withDelivered_ecode (s : State) (ws : List Word) : (s.withDelivered ws).ecode = s.ecode := rfl
@[simp] theorem State.withDelivered_port (s : State) (ws : List Word) : (s.withDelivered ws).port = s.port := rfl
@[simp] theorem State.withDelivered_offer (s : State) (ws : List Word) : (s.withDelivered ws).offer = s.offer := rfl
@[simp] theorem State.withDelivered_edges (s : State) (ws : List Word) : (s.withDelivered ws).edges = s.edges := rfl
@[simp] theorem State.withDelivered_delivered (s : State) (ws : List Word) : (s.withDelivered ws).delivered = ws := rfl

@[simp] theorem State.recordError_params (s : State) (e : ErrCode) : (s.recordError e).params = s.params := rfl
@[simp] theorem State.recordError_regs (s : State) (e : ErrCode) : (s.recordError e).regs = s.regs := rfl
@[simp] theorem State.recordError_din (s : State) (e : ErrCode) : (s.recordError e).din = s.din := rfl
@[simp] theorem State.recordError_out (s : State) (e : ErrCode) : (s.recordError e).out = s.out := rfl
@[simp] theorem State.recordError_err (s : State) (e : ErrCode) : (s.recordError e).err = true := rfl
@[simp] theorem State.recordError_ecode (s : State) (e : ErrCode) : (s.recordError e).ecode = if s.err then s.ecode else e.code := rfl
@[simp] theorem State.recordError_port (s : State) (e : ErrCode) : (s.recordError e).port = s.port := rfl
@[simp] theorem State.recordError_offer (s : State) (e : ErrCode) : (s.recordError e).offer = s.offer := rfl
@[simp] theorem State.recordError_edges (s : State) (e : ErrCode) : (s.recordError e).edges = s.edges := rfl
@[simp] theorem State.recordError_delivered (s : State) (e : ErrCode) : (s.recordError e).delivered = s.delivered := rfl

@[simp] theorem State.takeResponse_params (s : State) : s.takeResponse.params = s.params := rfl
@[simp] theorem State.takeResponse_regs (s : State) : s.takeResponse.regs = s.regs := rfl
@[simp] theorem State.takeResponse_din (s : State) : s.takeResponse.din = s.din := rfl
@[simp] theorem State.takeResponse_out (s : State) : s.takeResponse.out = s.out := rfl
@[simp] theorem State.takeResponse_err (s : State) : s.takeResponse.err = s.err := rfl
@[simp] theorem State.takeResponse_ecode (s : State) : s.takeResponse.ecode = s.ecode := rfl
@[simp] theorem State.takeResponse_port (s : State) : s.takeResponse.port = .ready := rfl
@[simp] theorem State.takeResponse_offer (s : State) : s.takeResponse.offer = s.offer := rfl
@[simp] theorem State.takeResponse_edges (s : State) : s.takeResponse.edges = s.edges := rfl
@[simp] theorem State.takeResponse_delivered (s : State) : s.takeResponse.delivered = s.delivered ++ s.port.pending.toList := rfl

@[simp] theorem State.settled_params (s : State) : s.settled.params = s.params := rfl
@[simp] theorem State.settled_regs (s : State) : s.settled.regs = s.regs := rfl
@[simp] theorem State.settled_din (s : State) : s.settled.din = s.din := rfl
@[simp] theorem State.settled_out (s : State) : s.settled.out = s.out := rfl
@[simp] theorem State.settled_err (s : State) : s.settled.err = s.err := rfl
@[simp] theorem State.settled_ecode (s : State) : s.settled.ecode = s.ecode := rfl
@[simp] theorem State.settled_port (s : State) : s.settled.port = .ready := rfl
@[simp] theorem State.settled_offer (s : State) : s.settled.offer = none := rfl
@[simp] theorem State.settled_edges (s : State) : s.settled.edges = [] := rfl
@[simp] theorem State.settled_delivered (s : State) : s.settled.delivered = s.delivered ++ s.port.pending.toList := rfl

/-! The updates, each made twice or over another, in one order. -/

@[simp] theorem State.withRegs_twice (s : State) (g g' : Regs) :
    (s.withRegs g).withRegs g' = s.withRegs g' := rfl
@[simp] theorem State.withDin_twice (s : State) (bs bs' : List Byte) :
    (s.withDin bs).withDin bs' = s.withDin bs' := rfl
@[simp] theorem State.withOut_twice (s : State) (bs bs' : List Byte) :
    (s.withOut bs).withOut bs' = s.withOut bs' := rfl
@[simp] theorem State.withPort_twice (s : State) (p p' : Port) :
    (s.withPort p).withPort p' = s.withPort p' := rfl
@[simp] theorem State.withOffer_twice (s : State) (o o' : Option Word) :
    (s.withOffer o).withOffer o' = s.withOffer o' := rfl
@[simp] theorem State.withEdges_twice (s : State) (es es' : List Edge) :
    (s.withEdges es).withEdges es' = s.withEdges es' := rfl
@[simp] theorem State.withDelivered_twice (s : State) (ws ws' : List Word) :
    (s.withDelivered ws).withDelivered ws' = s.withDelivered ws' := rfl
@[simp] theorem State.withRegs_same (s : State) : s.withRegs s.regs = s := rfl
@[simp] theorem State.withDin_same (s : State) : s.withDin s.din = s := rfl
@[simp] theorem State.withOut_same (s : State) : s.withOut s.out = s := rfl
@[simp] theorem State.withPort_same (s : State) : s.withPort s.port = s := rfl
@[simp] theorem State.withOffer_same (s : State) : s.withOffer s.offer = s := rfl
@[simp] theorem State.withEdges_same (s : State) : s.withEdges s.edges = s := rfl
@[simp] theorem State.withDelivered_same (s : State) : s.withDelivered s.delivered = s := rfl

end Sys2Proof.Machine
end

