-- ==== Sys2Proof/Laws/Ops.lean ====
section
/-!
SUPPORT. One lemma for each shared operation that says everything it can do, and the lemmas about lengths and bounds
that keep the buffers within their capacities.
-/

namespace Sys2Proof.Machine

/-! ## Bit vectors as numbers -/

theorem append_toNat {m n : Nat} (x : BitVec m) (y : BitVec n) : (x ++ y).toNat = x.toNat * 2 ^ n + y.toNat := by
  rw [BitVec.toNat_append, ← Nat.shiftLeft_add_eq_or_of_lt y.isLt, Nat.shiftLeft_eq]

theorem extract_toNat {n : Nat} (x : BitVec n) (lo len : Nat) :
    (x.extractLsb' lo len).toNat = x.toNat / 2 ^ lo % 2 ^ len := by
  rw [BitVec.extractLsb'_toNat, Nat.shiftRight_eq_div_pow]

theorem hiOctet_toNat (v : Half) : (hiOctet v).toNat = v.toNat / 256 := by
  have := v.isLt
  simp only [hiOctet, extract_toNat]
  omega

theorem loOctet_toNat (v : Half) : (loOctet v).toNat = v.toNat % 256 := by
  simp only [loOctet, extract_toNat]
  omega

theorem wordOf_toNat (h l : Byte) : (wordOf h l).toNat = h.toNat * 256 + l.toNat := append_toNat h l

/-- A word is made of its two octets (R12, R53). -/
@[simp] theorem wordOf_octets (v : Half) : wordOf (hiOctet v) (loOctet v) = v := by
  apply BitVec.eq_of_toNat_eq
  rw [wordOf_toNat, hiOctet_toNat, loOctet_toNat]
  omega

@[simp] theorem hiOctet_wordOf (h l : Byte) : hiOctet (wordOf h l) = h := by
  have := l.isLt
  apply BitVec.eq_of_toNat_eq
  rw [hiOctet_toNat, wordOf_toNat]
  omega

@[simp] theorem loOctet_wordOf (h l : Byte) : loOctet (wordOf h l) = l := by
  have := l.isLt
  apply BitVec.eq_of_toNat_eq
  rw [loOctet_toNat, wordOf_toNat]
  omega

/-! ## Ending a command -/

theorem respond_eq_next {v : Half} {s t : State} :
    respond v s = .next t ↔ t = s.withPort (.answering (okWord v)) := by
  simp [respond, eq_comm]

theorem raise_eq_next {e : ErrCode} {s t : State} :
    raise e s = .next t ↔ t = (s.recordError e).withPort (.answering (errorWord e)) := by
  simp [raise, eq_comm]

theorem appendDin_cases (n : Nat) (bs : List Byte) (s : State) :
    (s.params.pmax < s.din.length + n ∧ appendDin n bs s = raise .eOvf s) ∨
    (s.din.length + n ≤ s.params.pmax ∧ appendDin n bs s = respond 0x0000 (s.withDin (s.din ++ bs))) := by
  unfold appendDin
  split
  · exact .inl ⟨by omega, rfl⟩
  · exact .inr ⟨by omega, rfl⟩

/-- What an error code is: never 0x00 (R171). -/
theorem ErrCode.code_ne_zero (e : ErrCode) : e.code ≠ 0x00 := by cases e <;> decide

theorem statusOf_okWord (v : Half) : statusOf (okWord v) = 0x00 := by
  have := v.isLt
  apply BitVec.eq_of_toNat_eq
  simp only [statusOf, okWord, extract_toNat, append_toNat, BitVec.ofNat_eq_ofNat, BitVec.toNat_ofNat]
  omega

theorem statusOf_errorWord (e : ErrCode) : statusOf (errorWord e) = e.code := by cases e <;> decide

/-- A command that raises ends in error (R174, R175). -/
theorem raise_endsInError (e : ErrCode) (s : State) :
    ∃ t, raise e s = .next t ∧ EndsInError e.code s t :=
  ⟨_, rfl, by cases e <;> rfl, rfl, rfl, rfl, rfl, rfl, ⟨rfl, rfl, rfl, rfl⟩⟩

/-! ## What each command can do -/

/-- Everything a command can do: it ends in error and changes STATUS alone, or it ends OK and writes at most one of the
registers, DIN and OUT. -/
inductive Did (s : State) : State → Prop where
  | erred (e : ErrCode) : Did s ((s.recordError e).withPort (.answering (errorWord e)))
  | read (v : Half) : Did s (s.withPort (.answering (okWord v)))
  | wroteRegister (r : ParamReg) (v w : Half) : Did s ((s.withRegs (s.regs.set r v)).withPort (.answering (okWord w)))
  | wroteDin (bs : List Byte) (w : Half) (h : bs.length ≤ s.params.pmax ∨ bs = []) :
      Did s ((s.withDin bs).withPort (.answering (okWord w)))
  | wroteOut (bs : List Byte) (w : Half)
      (h : bs.length = 20 ∨ bs.length = 8 + s.din.length ∨ bs.length = 28 + s.din.length) :
      Did s ((s.withOut bs).withPort (.answering (okWord w)))

theorem be16_length (v : Half) : (be16 v).length = 2 := rfl

theorem be32_length (v : Word) : (be32 v).length = 4 := rfl

theorem outerBytes_length (p : Params) (n : Nat) (ttl proto : Byte) (src dst : Word) (ck : Half) :
    (outerBytes p n ttl proto src dst ck).length = 20 := rfl

theorem innerBytes_length (sp dp : Half) (pay : List Byte) (ck : Half) :
    (innerBytes sp dp pay ck).length = 8 + pay.length := by
  simp only [innerBytes, List.length_append, be16_length]

theorem outerOf_length (s : State) (n : Nat) : (outerOf s n).length = 20 := rfl

theorem innerOf_length (s : State) : (innerOf s).length = 8 + s.din.length := innerBytes_length ..

theorem frameOf_length (s : State) : (frameOf s).length = 28 + s.din.length := by
  simp only [frameOf, buildFrame, List.length_append, buildOuter, buildInner, outerBytes_length, innerBytes_length]
  omega

theorem appendDin_did (n : Nat) (bs : List Byte) (hn : bs.length = n) (s : State) :
    ∃ t, appendDin n bs s = .next t ∧ Did s t := by
  obtain ⟨_, h⟩ | ⟨hle, h⟩ := appendDin_cases n bs s
  · exact ⟨_, h, .erred _⟩
  · exact ⟨_, h, .wroteDin _ _ (.inl (by simp only [List.length_append]; omega))⟩

/-- Every command, in every state, goes on, and does one of the things of `Did`. -/
theorem exec_did (i : Instr) (s : State) : ∃ t, exec i s = .next t ∧ Did s t := by
  cases i with
  | wrp reg imm16 =>
    simp only [exec, execWrp]
    split
    · exact ⟨_, rfl, .wroteRegister _ _ _⟩
    · exact ⟨_, rfl, .erred _⟩
    · exact ⟨_, rfl, .erred _⟩
  | rdp reg =>
    simp only [exec, execRdp]
    split
    · exact ⟨_, rfl, .read _⟩
    · exact ⟨_, rfl, .erred _⟩
  | dclr => exact ⟨_, rfl, .wroteDin [] _ (.inr rfl)⟩
  | dpush imm8 => exact appendDin_did 1 _ rfl s
  | dpush2 imm16 => exact appendDin_did 2 _ rfl s
  | dzero imm16 => exact appendDin_did _ _ List.length_replicate s
  | rdo imm16 =>
    simp only [exec, execRdo]
    split
    · exact ⟨_, rfl, .read _⟩
    · exact ⟨_, rfl, .erred _⟩
  | cksum => exact ⟨_, rfl, .read _⟩
  | bldOuter imm16 =>
    simp only [exec, execBldOuter]
    split
    · exact ⟨_, rfl, .erred _⟩
    · exact ⟨_, rfl, .wroteOut _ _ (.inl (outerOf_length ..))⟩
  | bldInner => exact ⟨_, rfl, .wroteOut _ _ (.inr (.inl (innerOf_length s)))⟩
  | bldFrame => exact ⟨_, rfl, .wroteOut _ _ (.inr (.inr (frameOf_length s)))⟩

/-- The same of any word: an illegal one raises `E_OPCODE` (R78). -/
theorem runWord_did (w : Word) (s : State) : ∃ t, runWord w s = .next t ∧ Did s t := by
  unfold runWord
  split
  · exact exec_did _ s
  · exact ⟨_, rfl, .erred _⟩

/-- What a command does keeps the response, and touches nothing outside (R40). -/
theorem Did.answers {s t : State} (h : Did s t) : ∃ rsp, t.port = .answering rsp := by
  cases h <;> exact ⟨_, rfl⟩

theorem Did.sameOutside {s t : State} (h : Did s t) : SameOutside s t := by
  cases h <;> exact ⟨rfl, rfl, rfl, rfl⟩

/-! ## The operations keep the buffers' bounds and the registers' reserved bits -/

theorem Regs.set_ttl_hi {g : Regs} (h : hiOctet g.ttl = 0) (r : ParamReg) (v : Half) :
    hiOctet (g.set r v).ttl = 0 := by
  cases r <;> first | exact h | exact hiOctet_wordOf 0 _

theorem Regs.set_proto_hi {g : Regs} (h : hiOctet g.proto = 0) (r : ParamReg) (v : Half) :
    hiOctet (g.set r v).proto = 0 := by
  cases r <;> first | exact h | exact hiOctet_wordOf 0 _

/-- What a command does keeps the invariant of R38. -/
theorem Did.inv {s t : State} (h : Did s t) (hi : s.Inv) : t.Inv := by
  obtain ⟨legal, din, out, shape, ttl, proto, status⟩ := hi
  cases h with
  | erred e =>
    refine ⟨legal, din, out, shape, ttl, proto, ?_⟩
    have := e.code_ne_zero
    cases hs : s.err <;> simp_all
  | read v => exact ⟨legal, din, out, shape, ttl, proto, status⟩
  | wroteRegister r v w => exact ⟨legal, din, out, shape, Regs.set_ttl_hi ttl r v, Regs.set_proto_hi proto r v, status⟩
  | wroteDin bs w hb =>
    refine ⟨legal, ?_, out, shape, ttl, proto, status⟩
    obtain hb | rfl := hb
    · exact hb
    · exact Nat.zero_le _
  | wroteOut bs w hb =>
    refine ⟨legal, din, ?_, ?_, ttl, proto, status⟩
    · show bs.length ≤ s.params.pmax + 28
      omega
    · show LegalOutLength s.params.pmax bs.length
      unfold LegalOutLength
      omega

/-! ## The edges -/

/-- The acceptance of a word never stops: it is the command's meaning and the wait of LAT - 1 edges. -/
theorem acceptEdge_next (e : Edge) (s : State) :
    ∃ t, runWord e.cmdWord (s.withOffer none) = .next t ∧ Did (s.withOffer none) t ∧
      acceptEdge e s = .next (t.delayed e.stall) := by
  obtain ⟨t, ht, hd⟩ := runWord_did e.cmdWord (s.withOffer none)
  exact ⟨t, ht, hd, by simp [acceptEdge, ht]⟩

/-- The wait changes the port alone. -/
theorem State.delayed_eq (s : State) (n : Nat) : s.delayed n = s.withPort (s.delayed n).port := by
  unfold State.delayed
  split <;> rfl

theorem State.delayed_pending (s : State) (n : Nat) : (s.delayed n).port.pending = s.port.pending := by
  unfold State.delayed
  split <;> simp_all [Port.pending]

/-- Everything an edge can do (R71, R72, R190, R191). -/
theorem step_cases {s t : State} (h : step s = .next t) :
    (s.edges = [] ∧ t = s) ∨
    ∃ e rest, s.edges = e :: rest ∧
      ((e.rst = true ∧ t = resetEdge e (s.withEdges rest)) ∨
        (e.rst = false ∧ s.offerKept e = true ∧
          ((s.port = .held ∧ t = ((s.withEdges rest).withPort .ready).withOffer e.offered) ∨
            (s.port = .ready ∧ e.cmdValid = false ∧ t = (s.withEdges rest).withOffer none) ∨
            (s.port = .ready ∧ e.cmdValid = true ∧ ∃ u, runWord e.cmdWord ((s.withEdges rest).withOffer none) = .next u ∧
              Did ((s.withEdges rest).withOffer none) u ∧ t = u.delayed e.stall) ∨
            (∃ rsp, s.port = .working 0 rsp ∧
              t = ((s.withEdges rest).withPort (.answering rsp)).withOffer e.offered) ∨
            (∃ n rsp, s.port = .working (n + 1) rsp ∧
              t = ((s.withEdges rest).withPort (.working n rsp)).withOffer e.offered) ∨
            (∃ rsp, s.port = .answering rsp ∧ e.rspReady = false ∧ t = (s.withEdges rest).withOffer e.offered) ∨
            (∃ rsp, s.port = .answering rsp ∧ e.rspReady = true ∧
              t = ((s.withEdges rest).takeResponse).withOffer e.offered)))) := by
  unfold step clock at h
  split at h
  · rename_i hn
    exact .inl ⟨hn, by simpa using h.symm⟩
  · rename_i e rest he
    refine .inr ⟨e, rest, he, ?_⟩
    unfold clockEdge at h
    split at h
    · rename_i hr
      exact .inl ⟨hr, by simpa using h.symm⟩
    · rename_i hr
      split at h
      · rename_i hk
        refine .inr ⟨by simpa using hr, hk, ?_⟩
        unfold runEdge at h
        split at h
        · rename_i hp
          exact .inl ⟨hp, by simpa using h.symm⟩
        · rename_i hp
          split at h
          · rename_i hv
            obtain ⟨u, hu, hd, ha⟩ := acceptEdge_next e (s.withEdges rest)
            rw [ha] at h
            exact .inr (.inr (.inl ⟨hp, hv, u, hu, hd, by simpa using h.symm⟩))
          · rename_i hv
            exact .inr (.inl ⟨hp, by simpa using hv, by simpa using h.symm⟩)
        · rename_i rsp hp
          exact .inr (.inr (.inr (.inl ⟨rsp, hp, by simpa using h.symm⟩)))
        · rename_i n rsp hp
          exact .inr (.inr (.inr (.inr (.inl ⟨n, rsp, hp, by simpa using h.symm⟩))))
        · rename_i rsp hp
          cases hr2 : e.rspReady
          · exact .inr (.inr (.inr (.inr (.inr (.inl ⟨rsp, hp, rfl, by simpa [hr2] using h.symm⟩)))))
          · exact .inr (.inr (.inr (.inr (.inr (.inr ⟨rsp, hp, rfl, by simpa [hr2] using h.symm⟩)))))
      · exact absurd h (by simp)

end Sys2Proof.Machine
end

