-- ==== Sys2Proof/Laws/Decode.lean ====
section
/-!
SUPPORT. The fields of a command word: what they are as numbers, that they are what a format was made of, that they make
the word again, and what a match under a mask says of them.
-/

namespace Sys2Proof

open Machine

theorem opField_toNat (w : Word) : (opField w).toNat = w.toNat / 2 ^ 24 := by
  have := w.isLt
  simp only [opField, extract_toNat]
  omega

theorem regField_toNat (w : Word) : (regField w).toNat = w.toNat / 2 ^ 16 % 2 ^ 8 := by
  simp only [regField, extract_toNat]

theorem imm16Field_toNat (w : Word) : (imm16Field w).toNat = w.toNat % 2 ^ 16 := by
  simp only [imm16Field, extract_toNat, Nat.pow_zero, Nat.div_one]

theorem imm8Field_toNat (w : Word) : (imm8Field w).toNat = w.toNat % 2 ^ 8 := by
  simp only [imm8Field, extract_toNat, Nat.pow_zero, Nat.div_one]

theorem middleField_toNat (w : Word) : (middleField w).toNat = w.toNat / 2 ^ 8 % 2 ^ 16 := by
  simp only [middleField, extract_toNat]

theorem lowField_toNat (w : Word) : (lowField w).toNat = w.toNat % 2 ^ 24 := by
  simp only [lowField, extract_toNat, Nat.pow_zero, Nat.div_one]

/-- The fields of a word of format R or I (R73). -/
theorem fields_of_formatR (op reg : Byte) (imm16 : Half) (w : Word) (h : w = op ++ reg ++ imm16) :
    opField w = op ∧ regField w = reg ∧ imm16Field w = imm16 := by
  have h1 := op.isLt
  have h2 := reg.isLt
  have h3 := imm16.isLt
  have hw : w.toNat = (op.toNat * 2 ^ 8 + reg.toNat) * 2 ^ 16 + imm16.toNat := by rw [h, append_toNat, append_toNat]
  refine ⟨BitVec.eq_of_toNat_eq ?_, BitVec.eq_of_toNat_eq ?_, BitVec.eq_of_toNat_eq ?_⟩
  · rw [opField_toNat]; omega
  · rw [regField_toNat]; omega
  · rw [imm16Field_toNat]; omega

/-- The fields of a word of format B (R73). -/
theorem fields_of_formatB (op : Byte) (middle : Half) (imm8 : Byte) (w : Word) (h : w = op ++ middle ++ imm8) :
    opField w = op ∧ middleField w = middle ∧ imm8Field w = imm8 := by
  have h1 := op.isLt
  have h2 := middle.isLt
  have h3 := imm8.isLt
  have hw : w.toNat = (op.toNat * 2 ^ 16 + middle.toNat) * 2 ^ 8 + imm8.toNat := by rw [h, append_toNat, append_toNat]
  refine ⟨BitVec.eq_of_toNat_eq ?_, BitVec.eq_of_toNat_eq ?_, BitVec.eq_of_toNat_eq ?_⟩
  · rw [opField_toNat]; omega
  · rw [middleField_toNat]; omega
  · rw [imm8Field_toNat]; omega

/-- A word is made of its fields in format R or I. -/
theorem formatR_of_fields (w : Word) : w = opField w ++ regField w ++ imm16Field w := by
  have := w.isLt
  apply BitVec.eq_of_toNat_eq
  simp only [append_toNat, opField_toNat, regField_toNat, imm16Field_toNat]
  omega

/-- A word is made of its fields in format B. -/
theorem formatB_of_fields (w : Word) : w = opField w ++ middleField w ++ imm8Field w := by
  have := w.isLt
  apply BitVec.eq_of_toNat_eq
  simp only [append_toNat, opField_toNat, middleField_toNat, imm8Field_toNat]
  omega

/-- A word is made of its fields in format Z. -/
theorem formatZ_of_fields (w : Word) : w = opField w ++ lowField w := by
  have := w.isLt
  apply BitVec.eq_of_toNat_eq
  simp only [append_toNat, opField_toNat, lowField_toNat]
  omega

theorem ifZero_eq_command {n : Nat} {mbz : BitVec n} {i j : Instr} :
    ifZero mbz i = .command j ↔ mbz = 0 ∧ i = j := by
  unfold ifZero
  split <;> simp_all

theorem ifZero_eq_illegal {n : Nat} {mbz : BitVec n} {i : Instr} {why : Illegal} :
    ifZero mbz i = .illegal why ↔ mbz ≠ 0 ∧ why = .mustBeZero := by
  unfold ifZero
  split
  · rename_i h
    exact ⟨nofun, fun ⟨hn, _⟩ => absurd h hn⟩
  · rename_i h
    exact ⟨fun e => ⟨h, by cases e; rfl⟩, fun ⟨_, e⟩ => by rw [e]⟩

theorem append_eq_append {m n : Nat} {x y : BitVec m} {u v : BitVec n} : x ++ u = y ++ v ↔ x = y ∧ u = v := by
  refine ⟨fun h => ?_, fun ⟨h, k⟩ => by rw [h, k]⟩
  have h' := congrArg BitVec.toNat h
  have hu := u.isLt
  have hv := v.isLt
  rw [append_toNat, append_toNat] at h'
  have hq := congrArg (· / 2 ^ n) h'
  simp only [Nat.mul_comm _ (2 ^ n), Nat.mul_add_div (Nat.two_pow_pos n), Nat.div_eq_of_lt hu, Nat.div_eq_of_lt hv,
    Nat.add_zero] at hq
  rw [hq] at h'
  exact ⟨BitVec.eq_of_toNat_eq hq, BitVec.eq_of_toNat_eq (by omega)⟩

/-- A match under a mask, field by field (R74). -/
theorem matches_formatR (w : Word) (mo mr po pr : Byte) (mi pi : Half) :
    w &&& (mo ++ mr ++ mi : BitVec 32) = (po ++ pr ++ pi : BitVec 32) ↔
      opField w &&& mo = po ∧ regField w &&& mr = pr ∧ imm16Field w &&& mi = pi := by
  have h : w &&& (mo ++ mr ++ mi : BitVec 32) =
      (opField w &&& mo) ++ (regField w &&& mr) ++ (imm16Field w &&& mi) := by
    conv => lhs; rw [formatR_of_fields w]
    exact (BitVec.and_append (x₁ := opField w ++ regField w)).trans (by rw [BitVec.and_append])
  rw [h]
  exact append_eq_append.trans (by rw [append_eq_append, and_assoc])

theorem matches_formatB (w : Word) (mo po : Byte) (mm pm : Half) (mi pi : Byte) :
    w &&& (mo ++ mm ++ mi : BitVec 32) = (po ++ pm ++ pi : BitVec 32) ↔
      opField w &&& mo = po ∧ middleField w &&& mm = pm ∧ imm8Field w &&& mi = pi := by
  have h : w &&& (mo ++ mm ++ mi : BitVec 32) =
      (opField w &&& mo) ++ (middleField w &&& mm) ++ (imm8Field w &&& mi) := by
    conv => lhs; rw [formatB_of_fields w]
    exact (BitVec.and_append (x₁ := opField w ++ middleField w)).trans (by rw [BitVec.and_append])
  rw [h]
  exact append_eq_append.trans (by rw [append_eq_append, and_assoc])

theorem and_byte_ones (b : Byte) : b &&& 0xFF = b := BitVec.and_allOnes

theorem and_half_ones (v : Half) : v &&& 0xFFFF = v := BitVec.and_allOnes

/-- `WRP`'s row. -/
theorem matches_wrp (w : Word) : w &&& 0xFF000000 = 0x01000000 ↔ opField w = 0x01 := by
  refine Iff.trans (matches_formatR w 0xFF 0x00 0x01 0x00 0x0000 0x0000) ?_
  rw [and_byte_ones]
  simp only [BitVec.ofNat_eq_ofNat, BitVec.and_zero, and_true]

/-- `RDP`'s row. -/
theorem matches_rdp (w : Word) : w &&& 0xFF00FFFF = 0x02000000 ↔ opField w = 0x02 ∧ imm16Field w = 0 := by
  refine Iff.trans (matches_formatR w 0xFF 0x00 0x02 0x00 0xFFFF 0x0000) ?_
  rw [and_byte_ones, and_half_ones]
  simp only [BitVec.ofNat_eq_ofNat, BitVec.and_zero, true_and]

/-- `DPUSH`'s row. -/
theorem matches_dpush (w : Word) : w &&& 0xFFFFFF00 = 0x04000000 ↔ opField w = 0x04 ∧ middleField w = 0 := by
  refine Iff.trans (matches_formatB w 0xFF 0x04 0xFFFF 0x0000 0x00 0x00) ?_
  rw [and_byte_ones, and_half_ones]
  simp only [BitVec.ofNat_eq_ofNat, BitVec.and_zero, and_true]

/-- A row of format I: `pattern` has the opcode `op`. -/
theorem matches_formatI (w : Word) (op : Byte) :
    w &&& 0xFFFF0000 = (op ++ (0 : Byte) ++ (0 : Half) : BitVec 32) ↔ opField w = op ∧ regField w = 0 := by
  refine Iff.trans (matches_formatR w 0xFF 0xFF op 0x00 0x0000 0x0000) ?_
  rw [and_byte_ones, and_byte_ones]
  simp only [BitVec.ofNat_eq_ofNat, BitVec.and_zero, and_true]

/-- A row of format Z: `pattern` has the opcode `op`. -/
theorem matches_formatZ (w : Word) (op : Byte) :
    w &&& 0xFFFFFFFF = (op ++ (0 : BitVec 24) : BitVec 32) ↔ opField w = op ∧ lowField w = 0 := by
  have h : w &&& 0xFFFFFFFF = w := BitVec.and_allOnes
  rw [h]
  conv => lhs; lhs; rw [formatZ_of_fields w]
  exact append_eq_append

end Sys2Proof
end

