-- ==== Sys2Proof/Laws/Meanings.lean ====
section
/-!
SUPPORT. What each command's meaning is in each of its cases, and that no command reads the outside world.
-/

namespace Sys2Proof.Machine

/-! ## The register space -/

/-- An index names the register whose index it is (R21). -/
theorem regOfIndex_indexOfReg (r : RegName) : regOfIndex (indexOfReg r) = some r := by
  cases r with
  | param p => cases p <;> rfl
  | view v => cases v <;> rfl

theorem indexOfReg_of_regOfIndex {i : Byte} {r : RegName} (h : regOfIndex i = some r) : indexOfReg r = i := by
  unfold regOfIndex at h
  repeat' rw [ite_eq_iff] at h
  simp only [Option.some.injEq, reduceCtorEq, and_false, or_false] at h
  rcases h with ⟨rfl, rfl⟩ | ⟨-, ⟨rfl, rfl⟩ | ⟨-, ⟨rfl, rfl⟩ | ⟨-, ⟨rfl, rfl⟩ | ⟨-, ⟨rfl, rfl⟩ | ⟨-, ⟨rfl, rfl⟩ |
    ⟨-, ⟨rfl, rfl⟩ | ⟨-, ⟨rfl, rfl⟩ | ⟨-, ⟨rfl, rfl⟩ | ⟨-, ⟨rfl, rfl⟩ | ⟨-, ⟨rfl, rfl⟩ | ⟨-, ⟨rfl, rfl⟩ |
    ⟨-, ⟨rfl, rfl⟩ | ⟨-, rfl, rfl⟩⟩⟩⟩⟩⟩⟩⟩⟩⟩⟩⟩⟩ <;> rfl

/-- The indices 0x00 to 0x07 name the parameter registers (R21). -/
theorem regOfIndex_param {i : Byte} (h : i.toNat ≤ 0x07) : ∃ r, regOfIndex i = some (.param r) := by
  have h8 : ∀ k : Fin 8, ∃ r ∈ [ParamReg.ttl, .proto, .srch, .srcl, .dsth, .dstl, .sport, .dport],
      regOfIndex (BitVec.ofNat 8 k) = some (.param r) := by decide
  obtain ⟨r, -, hr⟩ := h8 ⟨i.toNat, by omega⟩
  exact ⟨r, by simpa using hr⟩

/-- The indices 0x00 to 0x0D are implemented (R21). -/
theorem regOfIndex_implemented {i : Byte} (h : i.toNat ≤ 0x0D) : ∃ r, regOfIndex i = some r := by
  have h14 : ∀ k : Fin 14, (regOfIndex (BitVec.ofNat 8 k)).isSome := by decide
  exact Option.isSome_iff_exists.1 (by simpa using h14 ⟨i.toNat, by omega⟩)

/-- Above 0x07 no index names a parameter register (R21). -/
theorem regOfIndex_not_param {i : Byte} (h : 0x07 < i.toNat) (r : ParamReg) : regOfIndex i ≠ some (.param r) := by
  intro e
  rw [← indexOfReg_of_regOfIndex e] at h
  cases r <;> exact absurd h (by decide)

/-- Above 0x0D no index is implemented (R21). -/
theorem regOfIndex_unimplemented {i : Byte} (h : 0x0D < i.toNat) : regOfIndex i = none := by
  cases e : regOfIndex i with
  | none => rfl
  | some r =>
    rw [← indexOfReg_of_regOfIndex e] at h
    cases r with
    | param p => cases p <;> exact absurd h (by decide)
    | view v => cases v <;> exact absurd h (by decide)

/-! ## The commands, case by case -/

theorem exec_wrp {reg : Byte} {r : ParamReg} (h : regOfIndex reg = some (.param r)) (imm16 : Half) (s : State) :
    exec (.wrp reg imm16) s = respond 0x0000 (s.withRegs (s.regs.set r imm16)) := by
  simp only [exec, execWrp, h]

theorem exec_wrp_eReg {reg : Byte} (h : 0x07 < reg.toNat) (imm16 : Half) (s : State) :
    exec (.wrp reg imm16) s = raise .eReg s := by
  simp only [exec, execWrp]
  split
  · rename_i r e
    exact absurd e (regOfIndex_not_param h r)
  · rfl
  · rfl

theorem exec_rdp {reg : Byte} {r : RegName} (h : regOfIndex reg = some r) (s : State) :
    exec (.rdp reg) s = respond (s.readReg r) s := by
  simp only [exec, execRdp, h]

theorem exec_rdp_eReg {reg : Byte} (h : 0x0D < reg.toNat) (s : State) : exec (.rdp reg) s = raise .eReg s := by
  simp only [exec, execRdp, regOfIndex_unimplemented h]

theorem exec_rdo {imm16 : Half} {s : State} (h : imm16.toNat < s.out.length) :
    exec (.rdo imm16) s = respond (wordOf 0x00 s.out[imm16.toNat]) s := by
  simp only [exec, execRdo, List.getElem?_eq_getElem h]

theorem exec_rdo_eRange {imm16 : Half} {s : State} (h : s.out.length ≤ imm16.toNat) :
    exec (.rdo imm16) s = raise .eRange s := by
  simp only [exec, execRdo, List.getElem?_eq_none h]

theorem exec_bldOuter {imm16 : Half} (h : 20 + imm16.toNat ≤ 65535) (s : State) :
    exec (.bldOuter imm16) s = respond 20 (s.withOut (outerOf s imm16.toNat)) := by
  simp only [exec, execBldOuter, if_neg (Nat.not_lt.2 h)]

theorem exec_bldOuter_eLen {imm16 : Half} (h : 65535 < 20 + imm16.toNat) (s : State) :
    exec (.bldOuter imm16) s = raise .eLen s := by
  simp only [exec, execBldOuter, if_pos h]

theorem appendDin_fits {n : Nat} {bs : List Byte} {s : State} (h : s.din.length + n ≤ s.params.pmax) :
    appendDin n bs s = respond 0x0000 (s.withDin (s.din ++ bs)) := if_neg (Nat.not_lt.2 h)

theorem appendDin_eOvf {n : Nat} {bs : List Byte} {s : State} (h : s.params.pmax < s.din.length + n) :
    appendDin n bs s = raise .eOvf s := if_pos h

/-! ## No command reads the outside world (R50, R61) -/

/-- The same unit in another outside world. -/
def State.inWorld (s : State) (p : Port) (o : Option Word) (es : List Edge) (ws : List Word) : State :=
  { s with port := p, offer := o, edges := es, delivered := ws }

/-- The same outcome in another outside world: the response is the command's own. -/
def resultInWorld (o : Option Word) (es : List Edge) (ws : List Word) : Result → Result
  | .next t => .next (t.inWorld t.port o es ws)
  | .fault r => .fault r
  | .refused r => .refused r

theorem readReg_inWorld (s : State) (p : Port) (o : Option Word) (es : List Edge) (ws : List Word) (r : RegName) :
    (s.inWorld p o es ws).readReg r = s.readReg r := by
  cases r with
  | param => rfl
  | view v => cases v <;> rfl

theorem appendDin_inWorld (n : Nat) (bs : List Byte) (s : State) (p : Port) (o : Option Word) (es : List Edge)
    (ws : List Word) : appendDin n bs (s.inWorld p o es ws) = resultInWorld o es ws (appendDin n bs s) := by
  obtain ⟨h, e⟩ | ⟨h, e⟩ := appendDin_cases n bs s
  · rw [e, appendDin_eOvf (s := s.inWorld p o es ws) h]; rfl
  · rw [e, appendDin_fits (s := s.inWorld p o es ws) h]; rfl

/-- A command does the same in every outside world. -/
theorem exec_inWorld (i : Instr) (s : State) (p : Port) (o : Option Word) (es : List Edge) (ws : List Word) :
    exec i (s.inWorld p o es ws) = resultInWorld o es ws (exec i s) := by
  cases i with
  | wrp reg imm16 =>
    rcases Nat.lt_or_ge 0x07 reg.toNat with h | h
    · rw [exec_wrp_eReg h, exec_wrp_eReg h]; rfl
    · obtain ⟨r, hr⟩ := regOfIndex_param h
      rw [exec_wrp hr, exec_wrp hr]; rfl
  | rdp reg =>
    rcases Nat.lt_or_ge 0x0D reg.toNat with h | h
    · rw [exec_rdp_eReg h, exec_rdp_eReg h]; rfl
    · obtain ⟨r, hr⟩ := regOfIndex_implemented h
      rw [exec_rdp hr, exec_rdp hr, readReg_inWorld]; rfl
  | dclr => rfl
  | dpush imm8 => exact appendDin_inWorld 1 [imm8] s p o es ws
  | dpush2 imm16 => exact appendDin_inWorld 2 (be16 imm16) s p o es ws
  | dzero imm16 => exact appendDin_inWorld _ _ s p o es ws
  | rdo imm16 =>
    rcases Nat.lt_or_ge imm16.toNat s.out.length with h | h
    · rw [exec_rdo h, exec_rdo (s := s.inWorld p o es ws) h]; rfl
    · rw [exec_rdo_eRange h, exec_rdo_eRange (s := s.inWorld p o es ws) h]; rfl
  | cksum => rfl
  | bldOuter imm16 =>
    rcases Nat.lt_or_ge 65535 (20 + imm16.toNat) with h | h
    · rw [exec_bldOuter_eLen h, exec_bldOuter_eLen h]; rfl
    · rw [exec_bldOuter h, exec_bldOuter h]; rfl
  | bldInner => rfl
  | bldFrame => rfl

/-- So does an accepted word. -/
theorem runWord_inWorld (w : Word) (s : State) (p : Port) (o : Option Word) (es : List Edge) (ws : List Word) :
    runWord w (s.inWorld p o es ws) = resultInWorld o es ws (runWord w s) := by
  unfold runWord
  split
  · exact exec_inWorld ..
  · rfl

/-! ## Checksum words -/

@[simp] theorem summedWords_nil (b : Bool) : summedWords b [] = [] := by cases b <;> rfl

@[simp] theorem summedWords_pair (b : Bool) (h l : Byte) (bs : List Byte) :
    summedWords b (h :: l :: bs) = wordOf h l :: summedWords b bs := rfl

@[simp] theorem summedWords_one (b : Bool) (h : Byte) :
    summedWords b [h] = if b then [wordOf h 0x00] else [] := by cases b <;> rfl

/-- The words of a sequence continue from a part of even length (R56). -/
theorem summedWords_append (b : Bool) : ∀ (x y : List Byte), x.length % 2 = 0 →
    summedWords b (x ++ y) = summedWords b x ++ summedWords b y
  | [], y, _ => by simp
  | [a], y, h => by simp at h
  | a :: c :: x, y, h => by
    have ih := summedWords_append b x y (by simp only [List.length_cons] at h; omega)
    simp [ih]

@[simp] theorem summedWords_be16 (b : Bool) (v : Half) (bs : List Byte) :
    summedWords b (be16 v ++ bs) = v :: summedWords b bs := by
  show wordOf (hiOctet v) (loOctet v) :: summedWords b bs = _
  rw [wordOf_octets]

end Sys2Proof.Machine
end

