-- ==== Sys2Proof/Laws/PerInstr.lean ====
section
/-!
SUPPORT. Statements made once for each command. RowMatch: the word of a command matches the row of the command table
that bears its mnemonic (30_encoding.md R74), so the encoder, written from the formats, agrees with the match and mask
columns.
-/

namespace Sys2Proof.Laws.RowMatch

/-- The command's word matches the row of its mnemonic. -/
def Statement (i : Instr) : Prop := ∃ r ∈ rows, r.mnemonic = i.mnemonic ∧ r.Matches (encode i)

theorem wrp (reg : Byte) (imm16 : Half) : Statement (.wrp reg imm16) :=
  ⟨⟨"WRP", 0x01000000, 0xFF000000⟩, by decide, rfl,
    (matches_wrp _).2 (fields_of_formatR _ _ _ (encode (.wrp reg imm16)) rfl).1⟩

theorem rdp (reg : Byte) : Statement (.rdp reg) :=
  ⟨⟨"RDP", 0x02000000, 0xFF00FFFF⟩, by decide, rfl,
    (matches_rdp _).2 ⟨(fields_of_formatR _ _ _ (encode (.rdp reg)) rfl).1,
      (fields_of_formatR _ _ _ (encode (.rdp reg)) rfl).2.2⟩⟩

theorem dclr : Statement .dclr := ⟨⟨"DCLR", 0x03000000, 0xFFFFFFFF⟩, by decide, rfl, by decide⟩

theorem dpush (imm8 : Byte) : Statement (.dpush imm8) :=
  ⟨⟨"DPUSH", 0x04000000, 0xFFFFFF00⟩, by decide, rfl,
    (matches_dpush _).2 ⟨(fields_of_formatB _ _ _ (encode (.dpush imm8)) rfl).1,
      (fields_of_formatB _ _ _ (encode (.dpush imm8)) rfl).2.1⟩⟩

theorem dpush2 (imm16 : Half) : Statement (.dpush2 imm16) :=
  ⟨⟨"DPUSH2", 0x05000000, 0xFFFF0000⟩, by decide, rfl,
    (matches_formatI _ 0x05).2 ⟨(fields_of_formatR _ _ _ (encode (.dpush2 imm16)) rfl).1,
      (fields_of_formatR _ _ _ (encode (.dpush2 imm16)) rfl).2.1⟩⟩

theorem dzero (imm16 : Half) : Statement (.dzero imm16) :=
  ⟨⟨"DZERO", 0x06000000, 0xFFFF0000⟩, by decide, rfl,
    (matches_formatI _ 0x06).2 ⟨(fields_of_formatR _ _ _ (encode (.dzero imm16)) rfl).1,
      (fields_of_formatR _ _ _ (encode (.dzero imm16)) rfl).2.1⟩⟩

theorem rdo (imm16 : Half) : Statement (.rdo imm16) :=
  ⟨⟨"RDO", 0x07000000, 0xFFFF0000⟩, by decide, rfl,
    (matches_formatI _ 0x07).2 ⟨(fields_of_formatR _ _ _ (encode (.rdo imm16)) rfl).1,
      (fields_of_formatR _ _ _ (encode (.rdo imm16)) rfl).2.1⟩⟩

theorem cksum : Statement .cksum := ⟨⟨"CKSUM", 0x10000000, 0xFFFFFFFF⟩, by decide, rfl, by decide⟩

theorem bldOuter (imm16 : Half) : Statement (.bldOuter imm16) :=
  ⟨⟨"BLD.OUTER", 0x20000000, 0xFFFF0000⟩, by decide, rfl,
    (matches_formatI _ 0x20).2 ⟨(fields_of_formatR _ _ _ (encode (.bldOuter imm16)) rfl).1,
      (fields_of_formatR _ _ _ (encode (.bldOuter imm16)) rfl).2.1⟩⟩

theorem bldInner : Statement .bldInner := ⟨⟨"BLD.INNER", 0x21000000, 0xFFFFFFFF⟩, by decide, rfl, by decide⟩

theorem bldFrame : Statement .bldFrame := ⟨⟨"BLD.FRAME", 0x22000000, 0xFFFFFFFF⟩, by decide, rfl, by decide⟩

end Sys2Proof.Laws.RowMatch
end

