-- ==== Sys2Proof/Tests/Slice0.lean ====
section
/-!
SUPPORT. Tests. Every expected value is from spec/95_test_vectors.md (named by its id) or from the rule named; the
`witness_<Obligation>` theorems show that the hypotheses of an obligation can be met, and its clauses at their
boundaries.
-/

namespace Sys2Proof.Tests

open Sys2Proof Sys2Proof.Machine

/-! ## Helpers -/

/-- The state a command or a step leaves. -/
def stateOf : Result → Option State
  | .next t => some t
  | .fault _ => none
  | .refused _ => none

/-- The response a command leaves on offer. -/
def answerOf (r : Result) : Option Word :=
  match (stateOf r).map State.port with
  | some (.answering rsp) => some rsp
  | _ => none

def isRefused : Result → Bool
  | .refused .unstableOffer => true
  | _ => false

/-- OUT as numbers. -/
def outNats (r : Result) : Option (List Nat) := (stateOf r).map fun t => t.out.map BitVec.toNat

/-- The registers of the introduction to 95_test_vectors.md. -/
def introRegs : Regs := ⟨0x0032, 0x0011, 0xC0A8, 0x0001, 0xC0A8, 0x00C7, 0x04D2, 0x1F90⟩

/-- A ready unit with those registers and `bs` in DIN. -/
def introWith (bs : List Byte) : State := { State.reset with regs := introRegs, din := bs, port := .ready }

/-- The unit before vector VF1. -/
def beforeVF1 : State := introWith [0xDE, 0xAD, 0xBE, 0xEF]

/-- An instance with a buffer of four octets, `n` of them used. -/
def small (n : Nat) : State :=
  { State.resetOf { Params.ckfs with pmax := 4 } with din := List.replicate n 0x01, port := .ready }

/-- A state with `n` octets in OUT. -/
def withOutOf (n : Nat) : State := { State.reset with out := List.replicate n 0xAB, port := .ready }

/-- A ready unit with the edges `es` to come. -/
def readyFor (es : List Edge) : State := { State.reset with port := .ready, edges := es }

/-- An edge that only lets time pass, one that offers `w`, and one with reset. -/
def idle : Edge := ⟨false, false, 0, false, 0⟩
def taking : Edge := ⟨false, false, 0, true, 0⟩
def offering (w : Word) (stall : Nat) : Edge := ⟨false, true, w, false, stall⟩
def resetting : Edge := ⟨true, false, 0, true, 0⟩

/-! ## Decoding: words written out bit by bit from the table of R74 -/

theorem test_decode_wrp : decode 0b00000001000001110001111110010000 = .command (.wrp 0x07 0x1F90) := by decide
theorem test_decode_wrp_any_reg : decode 0x01FF1234 = .command (.wrp 0xFF 0x1234) := by decide -- VD3
theorem test_decode_rdp : decode 0b00000010000010100000000000000000 = .command (.rdp 0x0A) := by decide
theorem test_decode_dclr : decode 0b00000011000000000000000000000000 = .command .dclr := by decide
theorem test_decode_dpush : decode 0b00000100000000000000000011011110 = .command (.dpush 0xDE) := by decide
theorem test_decode_dpush2 : decode 0b00000101000000001101111010101101 = .command (.dpush2 0xDEAD) := by decide
theorem test_decode_dzero : decode 0b00000110000000000001000000000000 = .command (.dzero 4096) := by decide
theorem test_decode_rdo : decode 0b00000111000000000000000000001010 = .command (.rdo 10) := by decide
theorem test_decode_cksum : decode 0b00010000000000000000000000000000 = .command .cksum := by decide
theorem test_decode_bldOuter : decode 0b00100000000000001111111111101011 = .command (.bldOuter 65515) := by decide
theorem test_decode_bldInner : decode 0b00100001000000000000000000000000 = .command .bldInner := by decide
theorem test_decode_bldFrame : decode 0b00100010000000000000000000000000 = .command .bldFrame := by decide

/-- VD1, VD2, VD12, VD13. -/
theorem test_decode_unknown : ([0x00000000, 0xFFFFFFFF, 0x08000000, 0x0F000000, 0x11000000, 0x1F000000, 0x23000000,
    0x30000000] : List Word).all (fun w => decode w = .illegal .unknownOpcode) = true := by decide

/-- VD5, VD6, VD7, VD9, VD10, VD11, VD15, VD16, VD19. -/
theorem test_decode_mustBeZero : ([0x02080001, 0x03000001, 0x04000100, 0x0501FFFF, 0x06FF0000, 0x07010000,
    0x10000001, 0x10800000, 0x20010000, 0x22000001] : List Word).all (fun w => decode w = .illegal .mustBeZero) = true := by
  decide

theorem test_decodeTableWord : decodeTableWord 32 0x2000000C = some (.bldOuter 12) ∧
    decodeTableWord 32 0x22000001 = none := by decide

/-- VD14 through the host's interface: the first instruction after reset. -/
theorem test_withFetchWord : answerOf (step (State.reset.withFetchWord 32 0x10000000)) = some 0x0000FFFF := by decide

/-! ## Source lines: the smoke test of well-formedness, and assembly (R85, R86) -/

theorem test_wf_reg : (Line.wrp (.numbered 256) 0).wf = false ∧ (Line.wrp (.numbered 255) 0).wf = true ∧
    (Line.rdp (.numbered 256)).wf = false := by decide
theorem test_wf_imm16 : (Line.wrp (.named (.param .ttl)) 65536).wf = false ∧ (Line.dpush2 65536).wf = false ∧
    (Line.dzero 65536).wf = false ∧ (Line.rdo 65536).wf = false ∧ (Line.bldOuter 65536).wf = false ∧
    (Line.bldOuter 65535).wf = true := by decide
theorem test_wf_imm8 : (Line.dpush 256).wf = false ∧ (Line.dpush 255).wf = true := by decide
theorem test_wf_addr : (Line.setsrc (.number (2 ^ 32))).wf = false ∧ (Line.setdst (.dotted 192 168 0 256)).wf = false ∧
    (Line.setdst (.dotted 256 0 0 0)).wf = false ∧ (Line.setsrc (.number (2 ^ 32 - 1))).wf = true := by decide
/-- The empty `DLOAD` is log 18. -/
theorem test_wf_dload : (Line.dload [0xDE, 256]).wf = false ∧ (Line.dload []).wf = true := by decide
theorem test_wf_dfillz : (Line.dfillz 65536).wf = false := by decide
theorem test_wf_rdo16 : (Line.rdo16 65535).wf = false ∧ (Line.rdo16 65534).wf = true := by decide
theorem test_assemble_refuses : assemble (.dpush 256) = none := by decide

/-- Examples of R85: `WRP TTL, 50` and `RDO 11`, with a comment. -/
theorem test_assembleText_wrp :
    (assembleText ['W', 'R', 'P', ' ', 'T', 'T', 'L', ',', ' ', '5', '0', ' ', ';', 'x']).map (·.map encode) =
      some [0x01000032] := by decide
theorem test_assembleText_rdo : (assembleText ['R', 'D', 'O', ' ', '1', '1']).map (·.map encode) = some [0x0700000B] := by
  decide
/-- P2 steps 3 and 4: `SETSRC 192.168.0.1`. -/
theorem test_assembleText_setsrc : (assembleText ['S', 'E', 'T', 'S', 'R', 'C', ' ', '1', '9', '2', '.', '1', '6', '8', '.',
    '0', '.', '1']).map (·.map encode) = some [0x0102C0A8, 0x01030001] := by decide
theorem test_assembleText_hex : (assembleText ['D', 'P', 'U', 'S', 'H', '2', ' ', '0', 'x', 'D', 'E', 'A', 'D']).map
    (·.map encode) = some [0x0500DEAD] := by decide

/-! ## The commands -/

/-- VH2, and `WRP DLEN, 5` of VH4. -/
theorem test_wrp_ttl : (stateOf (exec (.wrp 0 0x1234) State.reset)).map (·.regs.ttl) = some 0x0034 := by decide
theorem test_wrp_eReg : answerOf (exec (.wrp 8 5) State.reset) = some 0x02000000 ∧
    (stateOf (exec (.wrp 8 5) State.reset)).map (·.view .status) = some 0x0201 := by decide

/-- VH5, VH8. -/
theorem test_rdp_cap : answerOf (exec (.rdp 0x0B) State.reset) = some 0x00001000 := by decide
theorem test_rdp_eReg : answerOf (exec (.rdp 0x0E) State.reset) = some 0x02000000 := by decide

/-- VH17. -/
theorem test_dclr : (stateOf (exec .dclr beforeVF1)).map (·.din) = some [] := by decide

/-- VH9, and an append to a full buffer as in VH14. -/
theorem test_dpush : (stateOf (exec (.dpush 0xDE) State.reset)).map (·.din) = some [0xDE] := by decide
theorem test_dpush_eOvf : answerOf (exec (.dpush 1) (small 4)) = some 0x03000000 := by decide

/-- VH11, and no partial append as in VH16. -/
theorem test_dpush2 : (stateOf (exec (.dpush2 0xADBE) (introWith [0xDE]))).map (·.din) = some [0xDE, 0xAD, 0xBE] := by decide
theorem test_dpush2_eOvf : (stateOf (exec (.dpush2 0x0102) (small 3))).map (·.din) = some [1, 1, 1] ∧
    answerOf (exec (.dpush2 0x0102) (small 3)) = some 0x03000000 := by decide

/-- The example of R155, and nothing appended beyond PMAX as in VH15. -/
theorem test_dzero : (stateOf (exec (.dzero 2) State.reset)).map (·.din) = some [0, 0] := by decide
theorem test_dzero_eOvf : (stateOf (exec (.dzero 4) (small 1))).map (·.din) = some [1] := by decide

/-- VH18. -/
theorem test_rdo_eRange : answerOf (exec (.rdo 0) State.reset) = some 0x05000000 := by decide

/-- VK4, VK22 (drop and pad). -/
theorem test_cksum : answerOf (exec .cksum beforeVF1) = some 0x00006262 := by decide
theorem test_cksum_odd : cksum false [1, 2, 3, 4, 5] = 0xFBF9 ∧ cksum true [1, 2, 3, 4, 5] = 0xF6F9 := by decide

/-- VA3, VA4, VA5, VA7, VA8, VA9, VA11. -/
theorem test_ocAdd : ocAdd 0x0000 0xFFFF = 0xFFFF ∧ ocAdd 0x0001 0xFFFF = 0x0001 ∧ ocAdd 0xFFFF 0xFFFF = 0xFFFF ∧
    ocAdd 0xDEAD 0xBEEF = 0x9D9D ∧ ocAdd 0xFFFE 0x0001 = 0xFFFF ∧ ocAdd 0xFFFE 0x0002 = 0x0001 ∧
    ocAdd 0x8000 0x8001 = 0x0002 := by decide

/-- VK19. -/
theorem test_cksum_VK19 : cksum false [0x45, 0x00, 0x00, 0x73, 0x00, 0x00, 0x40, 0x00, 0x40, 0x11, 0x00, 0x00, 0xC0, 0xA8,
    0x00, 0x01, 0xC0, 0xA8, 0x00, 0xC7] = 0xB861 := by decide

/-- VO1, VO4. -/
theorem test_bldOuter : outNats (exec (.bldOuter 12) (introWith [])) = some [0x45, 0x00, 0x00, 0x20, 0x00, 0x00, 0x40, 0x00,
    0x32, 0x11, 0xC6, 0xB4, 0xC0, 0xA8, 0x00, 0x01, 0xC0, 0xA8, 0x00, 0xC7] := by decide +kernel
theorem test_bldOuter_eLen : answerOf (exec (.bldOuter 65516) (introWith [])) = some 0x04000000 := by decide

/-- VI1, and VI3 of an instance that pads. -/
theorem test_bldInner : outNats (exec .bldInner beforeVF1) = some [0x04, 0xD2, 0x1F, 0x90, 0x00, 0x0C, 0x3D, 0xF4, 0xDE,
    0xAD, 0xBE, 0xEF] := by decide
theorem test_bldInner_pad : outNats (exec .bldInner { introWith [0x11, 0x22, 0x33] with
    params := { Params.ckfs with oddPad := true } }) =
      some [0x04, 0xD2, 0x1F, 0x90, 0x00, 0x0B, 0x97, 0x70, 0x11, 0x22, 0x33] := by decide

/-- VF1, VF6. -/
theorem test_bldFrame : outNats (exec .bldFrame beforeVF1) = some [0x45, 0x00, 0x00, 0x20, 0x00, 0x00, 0x40, 0x00, 0x32,
    0x11, 0xC6, 0xB4, 0xC0, 0xA8, 0x00, 0x01, 0xC0, 0xA8, 0x00, 0xC7, 0x04, 0xD2, 0x1F, 0x90, 0x00, 0x0C, 0x3D, 0xF4,
    0xDE, 0xAD, 0xBE, 0xEF] ∧ answerOf (exec .bldFrame beforeVF1) = some 0x00000020 := by decide +kernel
theorem test_bldFrame_reset : outNats (exec .bldFrame State.reset) = some [0x45, 0x00, 0x00, 0x1C, 0x00, 0x00, 0x40, 0x00,
    0x00, 0x00, 0x7A, 0xE3, 0x00, 0x00, 0x00, 0x00, 0x00, 0x00, 0x00, 0x00, 0x00, 0x00, 0x00, 0x00, 0x00, 0x08, 0xFF,
    0xF7] := by decide +kernel

/-- VE1: ECODE keeps the first code. -/
theorem test_first_error : ((stateOf (runWords [0x07000000, 0x020E0000, 0x020A0000] State.reset)).map (·.delivered)) =
    some [0x05000000, 0x02000000, 0x00000501] := by decide

/-! ## Witnesses -/

theorem inv_reset_like {s : State} (hp : s.params.pmax ≤ 65507) (hd : s.din.length ≤ s.params.pmax)
    (ho : s.out.length = 0) (ht : hiOctet s.regs.ttl = 0) (hq : hiOctet s.regs.proto = 0)
    (he : s.err = false) (hc : s.ecode = 0x00) : s.Inv :=
  ⟨hp, hd, by omega, by simp [ho, LegalOutLength], ht, hq, by simp [he, hc]⟩

/-- The invariant (R38) can be met with an empty DIN, with a full one, after an error, and with a full OUT. -/
theorem witness_Inv : State.reset.Inv ∧ (small 4).Inv ∧ beforeVF1.Inv ∧
    { small 4 with out := List.replicate 32 0, err := true, ecode := 0x05 }.Inv :=
  ⟨inv_reset_like (by decide) (by decide) (by decide) (by decide) (by decide) (by decide) (by decide),
    inv_reset_like (by decide) (by decide) (by decide) (by decide) (by decide) (by decide) (by decide),
    inv_reset_like (by decide) (by decide) (by decide) (by decide) (by decide) (by decide) (by decide),
    ⟨by decide, by decide, by decide, by decide, by decide, by decide, by decide⟩⟩

theorem witness_EncodeInvertsDecode : decode 0x07000020 = .command (.rdo 32) := by decide

theorem witness_WordMatchesOneRowOrIsIllegal : (⟨"WRP", 0x01000000, 0xFF000000⟩ : Row) ∈ rows ∧
    (⟨"WRP", 0x01000000, 0xFF000000⟩ : Row).Matches 0x01FF1234 ∧ (∀ r ∈ rows, ¬ r.Matches 0x02080001) := by decide

/-- One illegal word for each kind of R78, and words of opcode 0x01 and 0x02. -/
theorem witness_IllegalWordsAreAnsweredEOpcode : ([0x08000000, 0x22000001, 0x20010000, 0x04000100, 0x02080001] :
    List Word).map (fun w => answerOf (runWord w State.reset)) = List.replicate 5 (some 0x01000000) ∧
    opField 0x01FF1234 = 0x01 ∧ opField 0x02FF0000 = 0x02 ∧ imm16Field 0x02FF0000 = 0 := by decide

theorem witness_PseudoInstructionsExpand : assemble (.setsrc (.number (2 ^ 32 - 1))) = some [.wrp 2 0xFFFF, .wrp 3 0xFFFF] ∧
    assemble (.setdst (.dotted 255 0 0 255)) = some [.wrp 4 0xFF00, .wrp 5 0x00FF] ∧ (65534 : Half).toNat < 65535 := by decide

theorem witness_AssembledWordIsTheFormatsNumber :
    (assemble (.wrp (.numbered 255) 65535)).map (·.map encode) = some [0x01FFFFFF] ∧
    assemble (.wrp (.numbered 256) 0) = none ∧ assemble (.wrp (.numbered 0) 65536) = none ∧
    assemble (.bldOuter 65536) = none := by decide

/-- The register-name form, and the operands of pseudo-instructions at and beyond their bounds. -/
theorem witness_AssembledWordIsTheFormatsNumber_names_and_pseudos :
    (assemble (.wrp (.named (.param .dport)) 65535)).map (·.map encode) = some [0x0107FFFF] ∧
    assemble (.wrp (.named (.param .dport)) 65536) = none ∧
    assemble (.setsrc (.number (2 ^ 32))) = none ∧ (assemble (.setsrc (.number (2 ^ 32 - 1)))).isSome ∧
    assemble (.setdst (.dotted 255 255 255 256)) = none ∧ assemble (.dload [255, 256]) = none ∧
    assemble (.dfillz 65536) = none ∧ (assemble (.dfillz 65535)).isSome ∧ assemble (.rdo16 65535) = none ∧
    (assemble (.rdo16 65534)).isSome := by decide

/-- Ready, a word offered for the first time and with LAT = 1, and offered again and with LAT = 2. -/
theorem witness_StepRunsDecodedCommand :
    (let s := readyFor [offering 0x10000000 0]
     s.port = .ready ∧ s.offer = none ∧ (stateOf (step s)).map (·.port) = some (.answering 0x0000FFFF)) ∧
    (let s := { readyFor [offering 0x10000000 1] with offer := some 0x10000000 }
     s.port = .ready ∧ s.offer = some 0x10000000 ∧ (stateOf (step s)).map (·.port) = some (.working 0 0x0000FFFF)) ∧
    decode 0x10000000 = .command .cksum := by decide

/-- A word placed while an earlier response is still in the unit. -/
theorem witness_PlacedWordRunsNext : decode 0x03000000 = .command .dclr ∧
    (stateOf (step (({ beforeVF1 with port := .answering 7 } : State).withFetchWord 32 0x03000000))).map
      (fun t => (t.din, t.delivered)) = some ([], [7]) := by decide

/-- An accepting edge; a response that waits, and one that is taken, at edges at which a word is offered. -/
theorem witness_ReadyOnlyWithoutCommandInUnit : (readyFor [offering 5 0]).accepts = some 5 ∧
    (stateOf (step (readyFor [offering 5 0]))).isSome ∧
    (stateOf (step { readyFor [offering 5 0] with port := .working 0 1 })).map (·.port.outPins.cmdReady) = some false ∧
    (stateOf (step { readyFor [⟨false, true, 5, true, 0⟩] with port := .answering 1 })).map
      (·.port.outPins.cmdReady) = some true := by decide

theorem witness_ResponseHeldUntilTransferred :
    (stateOf (step { readyFor [taking] with port := .answering 9 })).map (·.delivered) = some [9] ∧
    (stateOf (step { readyFor [idle] with port := .answering 9 })).map (·.port) = some (.answering 9) ∧
    (stateOf (step { readyFor [taking] with port := .working 0 9 })).map (·.delivered) = some [] := by decide

/-- LAT = 3, with the next word already on offer while the first command is in the unit. -/
theorem witness_ResponseOfferedAfterLatency :
    let waits := [idle, offering 7 0]
    let s := readyFor (offering 0x10000000 2 :: (waits ++ [offering 7 0]))
    s.accepts = some 0x10000000 ∧ s.offerKept (offering 0x10000000 2) = true ∧ waits.length = 2 ∧
      (∀ x ∈ waits, x.rst = false) ∧ keepsOffers none waits = true ∧
      (stateOf (s.after 2)).map (·.port.outPins.rspValid) = some false ∧
      (stateOf (s.after 3)).map (·.port.outPins.rspValid) = some true := by decide

theorem witness_QuietEdgeKeepsArchitecturalState :
    (∃ t, step beforeVF1 = .next t) ∧ beforeVF1.accepts = none ∧
    (∃ t, step (readyFor [idle]) = .next t) ∧ (readyFor [idle]).accepts = none ∧
    (∃ t, step (readyFor [offering 5 0]) = .next t) :=
  ⟨⟨_, rfl⟩, by decide, ⟨_, rfl⟩, by decide, ⟨_, rfl⟩⟩

/-- Reset while a command is in the unit (R191). -/
theorem witness_ResetEdgeAbandonsCommand :
    let s := { beforeVF1 with port := .working 3 0x42, edges := [resetting] }
    s.edges = resetting :: [] ∧ resetting.rst = true ∧ (stateOf (step s)).map (·.port.pending) = some none := by decide

/-- The first edge with `rst` = 0, at which the host already offers a word. -/
theorem witness_FirstEdgeAfterResetMakesReady :
    let s := { State.reset with edges := [offering 0x10000000 0] }
    s.port = .held ∧ s.offerKept (offering 0x10000000 0) = true ∧
      (stateOf (step s)).map (fun t => (t.port, t.offer)) = some (.ready, some 0x10000000) := by decide

/-- An offered word withdrawn, changed, and kept; and withdrawn at an edge with reset. -/
theorem witness_StepRefusesOnlyUnstableOffer :
    isRefused (step { State.reset with offer := some 5, edges := [idle] }) = true ∧
    isRefused (step { State.reset with offer := some 5, edges := [offering 6 0] }) = true ∧
    isRefused (step { State.reset with offer := some 5, edges := [offering 5 0] }) = false ∧
    isRefused (step { State.reset with offer := some 5, edges := [resetting] }) = false := by decide

theorem witness_StepKeepsInvariant : (small 4).Inv ∧ (∃ t, step (small 4) = .next t) ∧
    (stateOf (step { State.reset with err := true, ecode := 1, edges := [resetting] })).map (·.err) = some false :=
  ⟨witness_Inv.2.1, ⟨_, rfl⟩, by decide⟩

/-- Every state of the buffers at which an append just fits and just does not; the boundary indices of the registers, of
OUT and of the length of `BLD.OUTER`. -/
theorem witness_command_boundaries :
    (answerOf (exec (.wrp 0x07 1) State.reset) = some 0 ∧ answerOf (exec (.wrp 0x08 1) State.reset) = some 0x02000000) ∧
    (answerOf (exec (.rdp 0x0D) State.reset) = some 1 ∧ answerOf (exec (.rdp 0x0E) State.reset) = some 0x02000000) ∧
    (answerOf (exec (.dpush 1) (small 3)) = some 0 ∧ answerOf (exec (.dpush 1) (small 4)) = some 0x03000000) ∧
    (answerOf (exec (.dpush2 1) (small 2)) = some 0 ∧ answerOf (exec (.dpush2 1) (small 3)) = some 0x03000000) ∧
    (answerOf (exec (.dzero 4) (small 0)) = some 0 ∧ answerOf (exec (.dzero 5) (small 0)) = some 0x03000000) ∧
    (answerOf (exec (.rdo 3) (withOutOf 4)) = some 0xAB ∧ answerOf (exec (.rdo 4) (withOutOf 4)) = some 0x05000000) ∧
    (answerOf (exec (.bldOuter 65515) State.reset) = some 20 ∧
      answerOf (exec (.bldOuter 65516) State.reset) = some 0x04000000) := by decide

/-- The views of `RDP` (a state with the invariant, `witness_Inv`). -/
theorem witness_RdpRespondsRegisterOrView :
    let s := { small 4 with out := List.replicate 32 0, err := true, ecode := 0x05 }
    answerOf (exec (.rdp 0x08) s) = some 4 ∧ answerOf (exec (.rdp 0x09) s) = some 32 ∧
      answerOf (exec (.rdp 0x0A) s) = some 0x0501 ∧ answerOf (exec (.rdp 0x0B) s) = some 4 ∧
      answerOf (exec (.rdp 0x0C) s) = some 0 ∧ answerOf (exec (.rdp 0x0D) s) = some 1 := by decide

theorem witness_OcAddIsCommutativeMonoid : (0x0001 : Half) ≠ 0x0000 ∧
    (summedWords false [0, 1, 0, 2]).Perm (summedWords false [0, 2, 0, 1]) := by decide

theorem witness_DeferredFoldGivesSameSum : (List.replicate 3 (0xFFFF : Half)).length ≤ 65537 ∧ (small 4).Inv :=
  ⟨by decide, witness_Inv.2.1⟩

/-- VK25: its tree, its deferred fold, and two cycles of four lanes with two idle ones. -/
theorem witness_AdderTreesComputeChecksum :
    let bs : List Byte := octetsOf [0xDEAD, 0xBEEF, 0xFFFF, 0x0001, 0x8000, 0x8000]
    let left : AdderTree := .add (.add (.lane 0xBEEF) (.lane 0xDEAD)) (.add (.lane 0xFFFF) (.lane 0x0001))
    let right : AdderTree := .add (.add (.lane 0x8000) (.lane 0x8000)) (.add (.lane 0) (.lane 0))
    (AdderTree.add left right).fed.Perm (summedWords false bs ++ List.replicate 2 0x0000) ∧
      ([left, right].flatMap AdderTree.fed).Perm (summedWords false bs ++ List.replicate 2 0x0000) := by decide

/-- The field's last place in an even and in an odd sequence, dropped and padded. -/
theorem witness_ChecksumVerifiesItself :
    (∀ b, 2 * 1 + 1 < summedOctets b [0x45, 0x07, 0x00, 0x00].length) ∧
    (∀ b, 2 * 1 + 1 < summedOctets b [0x45, 0x07, 0x00, 0x00, 0x09].length) ∧
    ([0x45, 0x07, 0x00, 0x00] : List Byte)[2 * 1]? = some 0x00 ∧
    ([0x45, 0x07, 0x00, 0x00] : List Byte)[2 * 1 + 1]? = some 0x00 := by decide

/-- An even-length sequence whose checksum changes, and one whose checksum does not, when octets are exchanged. -/
theorem witness_OctetExchangeExchangesChecksum : ([0x00, 0x01, 0x00, 0x02] : List Byte).length % 2 = 0 ∧
    cksum false (exchangeOctets [0x00, 0x01, 0x00, 0x02]) = 0xFCFF ∧
    cksum false (exchangeOctets [0x01, 0x01, 0x02, 0x02]) = 0xFCFC := by decide

theorem witness_OddLastOctetDroppedOrPadded : ([] : List Byte).length % 2 = 0 ∧ ([0x12, 0x34] : List Byte).length % 2 = 0 := by
  decide

theorem witness_PairOrderDoesNotMatter : ([0x0001, 0x0002] : List Half).Perm [0x0002, 0x0001] := by decide

theorem witness_OuterHeaderLayout : 20 + 0 ≤ 65535 ∧ 20 + 65515 ≤ 65535 := by decide

/-- The empty and the longest payload (also of `FrameLengthsCoherent`). -/
theorem witness_InnerHeaderAndFrameLayout : 28 + ([] : List Byte).length ≤ 65535 ∧
    (∃ pay : List Byte, pay.length = 65507) ∧ 28 + 65507 ≤ 65535 :=
  ⟨by decide, ⟨List.replicate 65507 0x00, List.length_replicate⟩, by decide⟩

theorem witness_BuiltHeadersVerify : (9 : Nat) ≠ 10 ∧ (9 : Nat) ≠ 11 ∧ (5 : Nat) ≠ 6 ∧ (5 : Nat) ≠ 7 := by decide

theorem witness_EveryCommandAnswersItsStatus : expectedStatus State.reset (.rdo 0) ≠ 0x00 ∧
    expectedStatus State.reset .cksum = 0x00 := by decide

/-- A word that ends in error, as the first error and as a later one, and one that ends OK. -/
theorem witness_ErrorChangesOnlyStatus :
    (stateOf (runWord 0x07000000 State.reset)).map (·.ecode) = some 0x05 ∧
    (stateOf (runWord 0x07000000 { State.reset with err := true, ecode := 0x02 })).map (·.ecode) = some 0x02 ∧
    answerOf (runWord 0x22000000 State.reset) = some 0x0000001C := by decide

theorem witness_OnlyItsCommandsWriteEachState :
    (∃ t, exec (.wrp 7 1) State.reset = .next t ∧ t.regs ≠ State.reset.regs) ∧
    (∃ t, exec (.dpush 1) State.reset = .next t ∧ t.din ≠ State.reset.din) ∧
    (∃ t, exec .bldInner State.reset = .next t ∧ t.out ≠ State.reset.out) :=
  ⟨⟨_, rfl, by decide⟩, ⟨_, rfl, by decide⟩, ⟨_, rfl, by decide⟩⟩

theorem witness_BuildsReadOnlyTheirOperands : (65515 : Half).toNat ≤ 65515 ∧
    (∃ t, exec (.bldOuter 65515) beforeVF1 = .next t) ∧ (∃ t, exec .bldInner beforeVF1 = .next t) ∧
    (∃ t, exec .bldFrame beforeVF1 = .next t) ∧ (∃ t, exec .cksum beforeVF1 = .next t) :=
  ⟨by decide, ⟨_, rfl⟩, ⟨_, rfl⟩, ⟨_, rfl⟩, ⟨_, rfl⟩⟩

theorem witness_EarlierErrorsDoNotMatter : Instr.rdp 0x09 ≠ .rdp 0x0A := by decide

theorem witness_OnlyAppendsRepeatTheirEffect :
    (onlyReads .cksum = true ∧ expectedStatus State.reset .cksum = 0x00 ∧ ∃ t, exec .cksum State.reset = .next t) ∧
    (appends .bldFrame = false ∧ expectedStatus State.reset .bldFrame = 0x00 ∧
      ∃ t, exec .bldFrame State.reset = .next t) ∧
    (appends (.dpush2 1) = true ∧ expectedStatus (small 0) (.dpush2 1) = 0x00 ∧
      ∃ t u, exec (.dpush2 1) (small 0) = .next t ∧ exec (.dpush2 1) t = .next u ∧ expectedStatus t (.dpush2 1) = 0x00) :=
  ⟨⟨rfl, by decide, _, rfl⟩, ⟨rfl, by decide, _, rfl⟩, ⟨rfl, by decide, _, _, rfl, rfl, by decide⟩⟩

theorem witness_EdgeRefinesTransaction :
    ((readyFor [offering 5 3]).accepts = some 5 ∧ ∃ t, step (readyFor [offering 5 3]) = .next t) ∧
    ((readyFor [idle]).accepts = none ∧ ∃ t, step (readyFor [idle]) = .next t) :=
  ⟨⟨by decide, _, rfl⟩, by decide, _, rfl⟩

/-- From reset: one edge makes the unit ready, one accepts, one passes, one transfers. -/
theorem witness_EdgesRefineRunOfAcceptedWords :
    let s := { State.reset with edges := [idle, offering 0x10000000 1, idle, taking] }
    s.NoReset ∧ s.acceptedIn 4 = [0x10000000] ∧ (stateOf (s.after 4)).map (·.delivered) = some [0x0000FFFF] := by decide

theorem witness_RunAnswersEveryWord : State.reset.Inv ∧ State.reset.ErrorFree ∧
    (stateOf (runWords [0x10000000, 0x07000000] State.reset)).map (·.delivered) = some [0x0000FFFF, 0x05000000] :=
  ⟨witness_Inv.1, by decide, by decide⟩

end Sys2Proof.Tests
end

namespace Sys2Proof.Machine

/-! ## An edge without reset, at the transaction level (00_scope.md R6, R7) -/

/-- R71: what it takes for the next edge to accept `w`. -/
theorem State.accepts_eq_some {s : State} {w : Word} :
    s.accepts = some w ↔ ∃ e rest, s.edges = e :: rest ∧ e.rst = false ∧ s.port = .ready ∧ e.cmdValid = true ∧
      e.cmdWord = w := by
  unfold State.accepts
  split
  · rename_i e rest he
    cases hp : s.port <;> simp [he, Port.outPins, and_assoc]
  · rename_i he
    simp [he]

/-- R71: an edge that accepts `w` is `w`'s meaning, from the state without that edge and without an offer, and then the
wait of LAT - 1 edges. -/
theorem step_of_accepts {s t : State} {w : Word} (ha : s.accepts = some w) (h : step s = .next t) :
    ∃ u n, runWord w ((s.withEdges s.edges.tail).withOffer none) = .next u ∧
      Did ((s.withEdges s.edges.tail).withOffer none) u ∧ s.port = .ready ∧ t = u.delayed n := by
  obtain ⟨e, rest, he, hr, hp, hv, rfl⟩ := State.accepts_eq_some.1 ha
  obtain ⟨hn, -⟩ | ⟨e', rest', he', hcases⟩ := step_cases h
  · simp [he] at hn
  · obtain ⟨rfl, rfl⟩ : e = e' ∧ rest = rest' := by simpa [he] using he'
    simp only [hr, hp, hv, reduceCtorEq, false_and, and_false, exists_false, false_or, or_false, true_and] at hcases
    obtain ⟨-, u, hu, hd, rfl⟩ := hcases
    exact ⟨u, e.stall, by simpa [he] using hu, by simpa [he] using hd, hp, rfl⟩

/-- An edge listed first is the only one that can be. -/
theorem State.next_edge_rst {s : State} {e : Edge} {rest : List Edge} (he : s.edges = e :: rest)
    (hrst : e.rst = false) : ∀ e' rest', s.edges = e' :: rest' → e'.rst = false := by
  intro e' rest' he'
  obtain ⟨rfl, -⟩ : e = e' ∧ rest = rest' := by simpa [he] using he'
  exact hrst

/-- R7: an edge without reset that accepts nothing only moves the outside world on. A response in the unit stays in it or
is transferred; none is lost. -/
theorem step_of_quiet {s t : State} (ha : s.accepts = none) (hr : ∀ e rest, s.edges = e :: rest → e.rst = false)
    (h : step s = .next t) :
    ∃ p o ws, t = s.inWorld p o s.edges.tail ws ∧ ws ++ p.pending.toList = s.delivered ++ s.port.pending.toList := by
  obtain ⟨hn, rfl⟩ | ⟨e, rest, he, ⟨hrst, -⟩ | ⟨hrst, -, hcases⟩⟩ := step_cases h
  · exact ⟨_, _, _, congrArg t.withEdges (by rw [hn]; rfl : t.edges = t.edges.tail), rfl⟩
  · simp [hr e rest he] at hrst
  · rw [he, List.tail_cons]
    obtain ⟨hp, rfl⟩ | ⟨hp, -, rfl⟩ | ⟨hp, hv, -⟩ | ⟨rsp, hp, rfl⟩ | ⟨n, rsp, hp, rfl⟩ | ⟨rsp, hp, -, rfl⟩ |
      ⟨rsp, hp, -, rfl⟩ := hcases
    · exact ⟨_, _, _, rfl, by rw [hp]; rfl⟩
    · exact ⟨_, _, _, rfl, rfl⟩
    · have : s.accepts = some e.cmdWord := State.accepts_eq_some.2 ⟨e, rest, he, hrst, hp, hv, rfl⟩
      simp [ha] at this
    · exact ⟨_, _, _, rfl, by rw [hp]; rfl⟩
    · exact ⟨_, _, _, rfl, by rw [hp]; rfl⟩
    · exact ⟨_, _, _, rfl, rfl⟩
    · exact ⟨_, _, _, rfl, by simp [Port.pending]⟩

/-- What the transaction level sees of the outside world is the responses alone, transferred and pending. -/
theorem State.settled_inWorld (s : State) (p : Port) (o : Option Word) (es : List Edge) (ws : List Word) :
    (s.inWorld p o es ws).settled = s.inWorld .ready none [] (ws ++ p.pending.toList) := rfl

theorem State.settled_eq_inWorld (s : State) :
    s.settled = s.inWorld .ready none [] (s.delivered ++ s.port.pending.toList) := rfl

/-- R6, R201: how long a response waits in the unit is not seen at the transaction level. -/
theorem State.settled_delayed (s : State) (n : Nat) : (s.delayed n).settled = s.settled := by
  rw [State.settled_eq_inWorld, State.delayed_pending, State.delayed_eq]
  rfl

/-- R6, R61: the transaction of a word from the settled state is the word's meaning, settled. -/
theorem transaction_settled {w : Word} {s u : State} (hp : s.port = .ready) (hu : runWord w s = .next u) :
    transaction w s.settled = .next u.settled := by
  have hw : runWord w s.settled = .next (u.inWorld u.port none [] s.delivered) := by
    rw [State.settled_eq_inWorld, runWord_inWorld, hu, hp]
    simp [resultInWorld, Port.pending]
  obtain ⟨v, hv, hd⟩ := runWord_did w s
  obtain rfl : u = v := by simpa [hu] using hv
  rw [transaction, hw, State.settled_eq_inWorld, hd.sameOutside.delivered]
  rfl

/-- Settles O52: the accepting edge by `step_of_accepts` and `transaction_settled`, the quiet one by `step_of_quiet`. -/
theorem edgeRefinesTransaction : Obligations.EdgeRefinesTransaction := by
  intro s t e rest he hrst h
  refine ⟨fun w ha => ?_, fun ha => ?_⟩
  · obtain ⟨u, n, hu, -, hp, rfl⟩ := step_of_accepts ha h
    rw [State.settled_delayed]
    exact transaction_settled (s := (s.withEdges s.edges.tail).withOffer none) hp hu
  · obtain ⟨p, o, ws, rfl, hws⟩ := step_of_quiet ha (State.next_edge_rst he hrst) h
    rw [State.settled_inWorld, hws, State.settled_eq_inWorld]

/-- The parameters never change, and each edge listed is taken once (logs 2, 5). -/
theorem step_params_edges {s t : State} (h : step s = .next t) : t.params = s.params ∧ t.edges = s.edges.tail := by
  obtain ⟨hn, rfl⟩ | ⟨e, rest, he, ⟨-, rfl⟩ | ⟨hrst, -⟩⟩ := step_cases h
  · exact ⟨rfl, by rw [hn]; rfl⟩
  · exact ⟨rfl, by rw [he]; rfl⟩
  · cases ha : s.accepts with
    | some w =>
      obtain ⟨u, n, -, hd, -, rfl⟩ := step_of_accepts ha h
      rw [State.delayed_eq]
      exact ⟨hd.sameOutside.params, hd.sameOutside.edges⟩
    | none =>
      obtain ⟨p, o, ws, rfl, -⟩ := step_of_quiet ha (State.next_edge_rst he hrst) h
      exact ⟨rfl, rfl⟩

/-- Settles O13: a quiet edge changes the outside world alone (`step_of_quiet`). -/
theorem quietEdgeKeepsArchitecturalState : Obligations.QuietEdgeKeepsArchitecturalState := by
  intro s t h
  obtain ⟨hparams, hedges⟩ := step_params_edges h
  refine ⟨hparams, hedges, fun ha hr => ?_⟩
  obtain ⟨p, o, ws, rfl, -⟩ := step_of_quiet ha hr h
  exact ⟨rfl, rfl, rfl, rfl, rfl⟩

end Sys2Proof.Machine

namespace Sys2Proof.Machine

/-! ## What every step keeps (10_state.md R38) -/

/-- A property that does not look at the outside world, and that every command keeps, holds after every edge that is no
reset. -/
theorem step_keeps_or_resets {P : State → Prop}
    (world : ∀ (s : State) p o es ws, P s → P (s.inWorld p o es ws))
    (did : ∀ {s t : State}, Did s t → P s → P t) {s t : State} (h : step s = .next t) (hs : P s) :
    P t ∨ ∃ e rest, s.edges = e :: rest ∧ e.rst = true ∧ t = resetEdge e (s.withEdges rest) := by
  obtain ⟨-, rfl⟩ | ⟨e, rest, he, ⟨hrst, rfl⟩ | ⟨hrst, -⟩⟩ := step_cases h
  · exact .inl hs
  · exact .inr ⟨e, rest, he, hrst, rfl⟩
  · refine .inl ?_
    cases ha : s.accepts with
    | some w =>
      obtain ⟨u, n, -, hd, -, rfl⟩ := step_of_accepts ha h
      have hu : P u := did hd (world s s.port none s.edges.tail s.delivered hs)
      rw [State.delayed_eq]
      exact world u _ u.offer u.edges u.delivered hu
    | none =>
      obtain ⟨p, o, ws, rfl, -⟩ := step_of_quiet ha (State.next_edge_rst he hrst) h
      exact world s p o _ ws hs

/-- The invariant speaks of the parameters and the architectural state alone. -/
theorem State.Inv.inWorld {s : State} (hi : s.Inv) (p : Port) (o : Option Word) (es : List Edge) (ws : List Word) :
    (s.inWorld p o es ws).Inv :=
  ⟨hi.legal, hi.din, hi.out, hi.outShape, hi.ttl, hi.proto, hi.status⟩

theorem hiOctet_zero : hiOctet 0 = 0 := by decide

/-- The reset values meet the invariant for all legal parameters (R38, R39). -/
theorem State.resetOf_inv {p : Params} (legal : p.Legal) : (State.resetOf p).Inv where
  legal := legal
  din := Nat.zero_le _
  out := Nat.zero_le _
  outShape := .inl rfl
  ttl := hiOctet_zero
  proto := hiOctet_zero
  status := iff_of_true rfl rfl

/-- The reset state is the state after an edge with `rst` = 1, in some outside world (R190). -/
theorem resetEdge_eq_inWorld (e : Edge) (s : State) :
    resetEdge e s = (State.resetOf s.params).inWorld .held e.offered s.edges s.delivered := rfl

theorem step_inv {s t : State} (hi : s.Inv) (h : step s = .next t) : t.Inv := by
  obtain ht | ⟨e, rest, -, -, rfl⟩ := step_keeps_or_resets (fun _ p o es ws hs => hs.inWorld p o es ws) Did.inv h hi
  · exact ht
  · rw [resetEdge_eq_inWorld]
    exact (State.resetOf_inv hi.legal).inWorld ..

/-- R175, R38 (f): no command clears ERR. -/
theorem Did.keeps_err {s t : State} (h : Did s t) (he : s.err = true) : t.err = true := by
  cases h with
  | erred => rfl
  | read | wroteRegister | wroteDin | wroteOut => exact he

/-- A length below 2^16 is its own 16-bit view (R27, R28). -/
theorem lengthHalf_toNat {n : Nat} (h : n < 65536) : (lengthHalf n).toNat = n := by
  rw [lengthHalf, BitVec.toNat_ofNat, Nat.mod_eq_of_lt h]

theorem State.Inv.view_dlen {s : State} (hi : s.Inv) : (s.view .dlen).toNat = s.din.length := by
  have hp : s.params.pmax ≤ 65507 := hi.legal
  have hd := hi.din
  exact lengthHalf_toNat (by omega)

theorem State.Inv.view_olen {s : State} (hi : s.Inv) : (s.view .olen).toNat = s.out.length := by
  have hp : s.params.pmax ≤ 65507 := hi.legal
  have ho := hi.out
  exact lengthHalf_toNat (by omega)

/-- Settles O18: the parameters of CKFS are legal. -/
theorem resetMeetsInvariant : Obligations.ResetMeetsInvariant := State.resetOf_inv (p := Params.ckfs) (by decide)

/-- Settles O19: (a) to (e) by `step_inv`, (f) because a step that is no reset keeps ERR = 1. -/
theorem stepKeepsInvariant : Obligations.StepKeepsInvariant := by
  refine ⟨resetMeetsInvariant, fun s t hi h => step_inv hi h, fun s hi => ⟨hi.view_dlen, hi.view_olen⟩, ?_⟩
  intro s t h hs ht
  obtain hkept | ⟨e, rest, he, hrst, -⟩ :=
    step_keeps_or_resets (P := fun s => s.err = true) (fun _ _ _ _ _ hs => hs) Did.keeps_err h hs
  · simp [ht] at hkept
  · exact ⟨e, rest, he, hrst⟩

/-! ## The reset values (10_state.md R39) -/

theorem Regs.reset_get (r : ParamReg) : Regs.reset.get r = 0x0000 := by cases r <;> rfl

/-- Settles O16: the fields and views by evaluation; OUT is empty, so every index of `RDO` is out of range. -/
theorem resetValues : Obligations.ResetValues := by
  refine ⟨Regs.reset_get, rfl, rfl, rfl, rfl, rfl, rfl, by decide, rfl, by decide, rfl, fun k => ?_⟩
  rw [exec_rdo_eRange (Nat.zero_le _)]
  exact raise_endsInError .eRange State.reset

/-! ## What each command may write (10_state.md R40) -/

/-- The write columns of R40: every command may write STATUS (in error), and besides it the one part of the state that
its row names. -/
inductive Writes (s : State) : Instr → State → Prop where
  | status (i : Instr) (e : ErrCode) (p : Port) : Writes s i ((s.recordError e).withPort p)
  | nothing (i : Instr) (p : Port) : Writes s i (s.withPort p)
  | regs (reg : Byte) (imm16 : Half) (g : Regs) (p : Port) : Writes s (.wrp reg imm16) ((s.withRegs g).withPort p)
  | din (i : Instr) (h : i = .dclr ∨ appends i = true) (bs : List Byte) (p : Port) :
      Writes s i ((s.withDin bs).withPort p)
  | out (i : Instr) (h : (∃ imm16, i = .bldOuter imm16) ∨ i = .bldInner ∨ i = .bldFrame) (bs : List Byte) (p : Port) :
      Writes s i ((s.withOut bs).withPort p)

theorem raise_writes {i : Instr} {e : ErrCode} {s t : State} (h : raise e s = .next t) : Writes s i t := by
  obtain rfl := raise_eq_next.1 h
  exact .status ..

theorem respond_writes {i : Instr} {v : Half} {s t : State} (h : respond v s = .next t) : Writes s i t := by
  obtain rfl := respond_eq_next.1 h
  exact .nothing ..

theorem appendDin_writes {i : Instr} {n : Nat} {bs : List Byte} {s t : State} (hi : appends i = true)
    (h : appendDin n bs s = .next t) : Writes s i t := by
  obtain ⟨-, e⟩ | ⟨-, e⟩ := appendDin_cases n bs s
  · exact raise_writes (e ▸ h)
  · obtain rfl := respond_eq_next.1 (e ▸ h)
    exact .din _ (.inr hi) ..

theorem exec_writes {i : Instr} {s t : State} (h : exec i s = .next t) : Writes s i t := by
  cases i with
  | wrp reg imm16 =>
    rcases Nat.lt_or_ge 0x07 reg.toNat with hr | hr
    · exact raise_writes (exec_wrp_eReg hr imm16 s ▸ h)
    · obtain ⟨r, hr⟩ := regOfIndex_param hr
      obtain rfl := respond_eq_next.1 (exec_wrp hr imm16 s ▸ h)
      exact .regs ..
  | rdp reg =>
    rcases Nat.lt_or_ge 0x0D reg.toNat with hr | hr
    · exact raise_writes (exec_rdp_eReg hr s ▸ h)
    · obtain ⟨r, hr⟩ := regOfIndex_implemented hr
      exact respond_writes (exec_rdp hr s ▸ h)
  | dclr =>
    obtain rfl := respond_eq_next.1 h
    exact .din _ (.inl rfl) ..
  | dpush imm8 => exact appendDin_writes rfl h
  | dpush2 imm16 => exact appendDin_writes rfl h
  | dzero imm16 => exact appendDin_writes rfl h
  | rdo imm16 =>
    rcases Nat.lt_or_ge imm16.toNat s.out.length with hk | hk
    · exact respond_writes (exec_rdo hk ▸ h)
    · exact raise_writes (exec_rdo_eRange hk ▸ h)
  | cksum => exact respond_writes h
  | bldOuter imm16 =>
    rcases Nat.lt_or_ge 65535 (20 + imm16.toNat) with hl | hl
    · exact raise_writes (exec_bldOuter_eLen hl s ▸ h)
    · obtain rfl := respond_eq_next.1 (exec_bldOuter hl s ▸ h)
      exact .out _ (.inl ⟨imm16, rfl⟩) ..
  | bldInner =>
    obtain rfl := respond_eq_next.1 h
    exact .out _ (.inr (.inl rfl)) ..
  | bldFrame =>
    obtain rfl := respond_eq_next.1 h
    exact .out _ (.inr (.inr rfl)) ..

/-- Settles O48: each column of `Writes` leaves the other parts of the state as they are. -/
theorem onlyItsCommandsWriteEachState : Obligations.OnlyItsCommandsWriteEachState := by
  intro i s t h
  cases exec_writes h with
  | status | nothing => exact ⟨absurd rfl, absurd rfl, absurd rfl⟩
  | regs reg imm16 => exact ⟨fun _ => ⟨reg, imm16, rfl⟩, absurd rfl, absurd rfl⟩
  | din _ hi => exact ⟨absurd rfl, fun _ => hi, absurd rfl⟩
  | out _ hi => exact ⟨absurd rfl, absurd rfl, fun _ => hi⟩

/-! ## What the builds and `CKSUM` read (10_state.md R40, R112, R126, R127) -/

/-- The outer header is made of `TTL`, `PROTO` and the addresses alone. -/
theorem outerOf_other_din_ports_out (s : State) (bs out : List Byte) (sport dport : Half) (n : Nat) :
    outerOf { s with din := bs, out := out, regs := { s.regs with sport := sport, dport := dport } } n =
      outerOf s n := rfl

/-- The inner datagram is made of the ports and DIN alone. -/
theorem innerOf_other_regs_out (s : State) (g : Regs) (out : List Byte) :
    innerOf { s with out := out, regs := { g with sport := s.regs.sport, dport := s.regs.dport } } = innerOf s := rfl

theorem frameOf_other_out (s : State) (out : List Byte) : frameOf { s with out := out } = frameOf s := rfl

/-- `BLD.OUTER` reads neither DIN nor the ports, whether it builds or ends in `E_LEN`. -/
theorem exec_bldOuter_other_din_ports {imm16 : Half} {s t : State} (g : Regs) (bs : List Byte)
    (h : exec (.bldOuter imm16) s = .next t) :
    exec (.bldOuter imm16) { s with din := bs, regs := { s.regs with sport := g.sport, dport := g.dport } } =
      .next { t with din := bs, regs := { s.regs with sport := g.sport, dport := g.dport } } := by
  rcases Nat.lt_or_ge 65535 (20 + imm16.toNat) with hl | hl
  · rw [exec_bldOuter_eLen hl, raise_eq_next] at h
    rw [exec_bldOuter_eLen hl, raise_eq_next, h]
    rfl
  · rw [exec_bldOuter hl, respond_eq_next] at h
    rw [exec_bldOuter hl, respond_eq_next, h, outerOf_other_din_ports_out s bs s.out]
    rfl

/-- Settles O49: each command's meaning is `respond` of a state made of the operands it reads. -/
theorem buildsReadOnlyTheirOperands : Obligations.BuildsReadOnlyTheirOperands := by
  intro s g bs
  refine ⟨fun imm16 t h => exec_bldOuter_other_din_ports g bs h, fun t h => ?_, fun t h => ?_, fun t h => ?_,
    fun imm16 t hl h => ?_, fun t h => ?_⟩
  · obtain rfl := respond_eq_next.1 h
    exact respond_eq_next.2 (by rw [innerOf_other_regs_out s g s.out]; rfl)
  · obtain rfl := respond_eq_next.1 h
    exact respond_eq_next.2 (by rw [innerOf_other_regs_out s s.regs bs]; rfl)
  · obtain rfl := respond_eq_next.1 h
    exact respond_eq_next.2 (by rw [frameOf_other_out]; rfl)
  · have hfits : 20 + imm16.toNat ≤ 65535 := by omega
    rw [exec_bldOuter hfits, respond_eq_next] at h
    rw [exec_bldOuter hfits, respond_eq_next, h, outerOf_other_din_ports_out s s.din bs s.regs.sport s.regs.dport]
    rfl
  · obtain rfl := respond_eq_next.1 h
    exact respond_eq_next.2 rfl

end Sys2Proof.Machine

namespace Sys2Proof.Machine

/-! ## Edges as runs of accepted words (00_scope.md R6, 20_memory.md R61) -/

/-- A run of words goes on from where its first part ends. -/
theorem runWords_append {ws : List Word} {s t : State} (h : runWords ws s = .next t) (ws' : List Word) :
    runWords (ws ++ ws') s = runWords ws' t := by
  induction ws generalizing s with
  | nil =>
    obtain rfl : s = t := by simpa [runWords] using h
    rfl
  | cons w ws ih =>
    cases hw : transaction w s with
    | next u =>
      simp only [runWords, hw] at h
      simp only [List.cons_append, runWords, hw, ih h]
    | fault r => cases r
    | refused r => simp [runWords, hw] at h

theorem runWords_singleton {w : Word} {s t : State} (h : transaction w s = .next t) : runWords [w] s = .next t := by
  simp only [runWords, h]

/-- With no edge listed nothing happens (log 5). -/
theorem step_of_no_edges {s : State} (he : s.edges = []) : step s = .next s := by
  simp only [step, clock, he]

/-- R6: an edge without reset, or the lack of one, is the run of the words it accepts, at most one. -/
theorem step_runs_accepted {s t : State} (hr : s.NoReset) (h : step s = .next t) :
    runWords s.accepts.toList s.settled = .next t.settled := by
  cases he : s.edges with
  | nil =>
    obtain rfl : s = t := by simpa [step_of_no_edges he] using h
    simp only [State.accepts, he, Option.toList_none, runWords]
  | cons e rest =>
    obtain ⟨haccepts, hquiet⟩ := edgeRefinesTransaction s t e rest he (hr e (by simp [he])) h
    cases ha : s.accepts with
    | some w => exact runWords_singleton (haccepts w ha)
    | none => rw [hquiet ha]; rfl

/-- The edges to come stay without reset. -/
theorem step_noReset {s t : State} (hr : s.NoReset) (h : step s = .next t) : t.NoReset := by
  intro e he
  rw [(step_params_edges h).2] at he
  exact hr e (List.mem_of_mem_tail he)

theorem State.after_succ_eq_next {n : Nat} {s t : State} :
    s.after (n + 1) = .next t ↔ ∃ u, step s = .next u ∧ u.after n = .next t := by
  cases h : step s <;> simp [State.after, h]

theorem State.acceptedIn_succ {n : Nat} {s u : State} (h : step s = .next u) :
    s.acceptedIn (n + 1) = s.accepts.toList ++ u.acceptedIn n := by
  simp only [State.acceptedIn, h]

/-- Settles O53, by induction on the edges: the first is a run (`step_runs_accepted`), and the others go on from it. -/
theorem edgesRefineRunOfAcceptedWords : Obligations.EdgesRefineRunOfAcceptedWords := by
  intro n
  induction n with
  | zero =>
    intro s t _ h
    obtain rfl : s = t := by simpa [State.after] using h
    rfl
  | succ n ih =>
    intro s t hr h
    obtain ⟨u, hu, ht⟩ := State.after_succ_eq_next.1 h
    rw [State.acceptedIn_succ hu, runWords_append (step_runs_accepted hr hu)]
    exact ih u t (step_noReset hr hu) ht

/-! ## Commands issued twice (20_memory.md R59) -/

/-- R59: a reading command that ends OK only answers. -/
theorem exec_onlyReads {i : Instr} {s t : State} (hi : onlyReads i = true) (h : exec i s = .next t)
    (hok : expectedStatus s i = 0x00) : t = s.withPort t.port := by
  have of_respond {v : Half} (hv : exec i s = respond v s) : t = s.withPort t.port := by
    obtain rfl := respond_eq_next.1 (hv ▸ h)
    rfl
  cases i with
  | rdp reg =>
    have himplemented : ¬ 0x0D < reg.toNat := (Ne.ite_eq_right_iff (by decide)).1 hok
    obtain ⟨r, hr⟩ := regOfIndex_implemented (Nat.not_lt.1 himplemented)
    exact of_respond (exec_rdp hr s)
  | rdo imm16 =>
    have hrange : ¬ s.out.length ≤ imm16.toNat := (Ne.ite_eq_right_iff (by decide)).1 hok
    exact of_respond (exec_rdo (Nat.not_le.1 hrange))
  | cksum => exact of_respond rfl
  | wrp | dclr | dpush | dpush2 | dzero | bldOuter | bldInner | bldFrame => cases hi

/-- A command that has only answered does the same again: it does not read the port. -/
theorem exec_again_of_only_answered {i : Instr} {s t : State} (h : exec i s = .next t) (ht : t = s.withPort t.port) :
    exec i t = .next t := by
  calc exec i t
      = exec i (s.inWorld t.port s.offer s.edges s.delivered) := congrArg (exec i) ht
    _ = resultInWorld s.offer s.edges s.delivered (exec i s) := exec_inWorld ..
    _ = .next (t.inWorld t.port s.offer s.edges s.delivered) := by rw [h]; rfl
    _ = .next t := by rw [ht]; rfl

/-- R59, R150: a register written twice with one value is as written once. -/
@[simp] theorem Regs.set_set_same (g : Regs) (r : ParamReg) (v : Half) : (g.set r v).set r v = g.set r v := by
  cases r <;> rfl

/-- R59: a command that is no append leaves a state in which it does nothing more, and answers the same. -/
theorem exec_idempotent {i : Instr} {s t : State} (hi : appends i = false) (h : exec i s = .next t)
    (hok : expectedStatus s i = 0x00) : exec i t = .next t := by
  cases i with
  | rdp | rdo | cksum => exact exec_again_of_only_answered h (exec_onlyReads rfl h hok)
  | wrp reg imm16 =>
    have hparam : ¬ 0x07 < reg.toNat := (Ne.ite_eq_right_iff (by decide)).1 hok
    obtain ⟨r, hr⟩ := regOfIndex_param (Nat.not_lt.1 hparam)
    obtain rfl := respond_eq_next.1 (exec_wrp hr imm16 s ▸ h)
    rw [exec_wrp hr, respond_eq_next, State.withPort_regs, State.withRegs_regs, Regs.set_set_same]
    rfl
  | bldOuter imm16 =>
    have hshort : ¬ 65515 < imm16.toNat := (Ne.ite_eq_right_iff (by decide)).1 hok
    have hfits : 20 + imm16.toNat ≤ 65535 := by omega
    obtain rfl := respond_eq_next.1 (exec_bldOuter hfits s ▸ h)
    exact exec_bldOuter hfits _
  | dclr | bldInner | bldFrame =>
    obtain rfl := respond_eq_next.1 h
    rfl
  | dpush | dpush2 | dzero => cases hi

/-- R153 to R155: where an append fits it appends its own octets, whatever the state; none only for `DZERO 0`. -/
theorem exec_appends {i : Instr} (hi : appends i = true) :
    ∃ bs, (bs = [] → i = .dzero 0) ∧
      ∀ s, expectedStatus s i = 0x00 → exec i s = respond 0x0000 (s.withDin (s.din ++ bs)) := by
  have fits {n : Nat} {bs : List Byte} {s : State}
      (hok : (if s.params.pmax < s.din.length + n then 0x03 else 0x00 : Byte) = 0x00) :
      appendDin n bs s = respond 0x0000 (s.withDin (s.din ++ bs)) :=
    appendDin_fits (Nat.not_lt.1 ((Ne.ite_eq_right_iff (by decide)).1 hok))
  cases i with
  | dpush imm8 => exact ⟨[imm8], nofun, fun s hok => fits hok⟩
  | dpush2 imm16 => exact ⟨be16 imm16, nofun, fun s hok => fits hok⟩
  | dzero imm16 =>
    refine ⟨List.replicate imm16.toNat 0x00, fun hnil => ?_, fun s hok => fits hok⟩
    have hzero : imm16 = 0 := BitVec.eq_of_toNat_eq ((List.replicate_eq_nil_iff _).1 hnil)
    rw [hzero]
  | wrp | rdp | dclr | rdo | cksum | bldOuter | bldInner | bldFrame => cases hi

/-- Settles O51: readers by `exec_onlyReads`, repetition by `exec_idempotent`, appends by `exec_appends` used twice. -/
theorem onlyAppendsRepeatTheirEffect : Obligations.OnlyAppendsRepeatTheirEffect := by
  refine ⟨fun i s t => exec_onlyReads, fun i s t => exec_idempotent, fun i s t u hi hs ht hoks hokt => ?_⟩
  obtain ⟨bs, hempty, happend⟩ := exec_appends hi
  obtain rfl := respond_eq_next.1 (happend s hoks ▸ hs)
  obtain rfl := respond_eq_next.1 (happend _ hokt ▸ ht)
  exact ⟨bs, rfl, rfl, hempty⟩

end Sys2Proof.Machine

namespace Sys2Proof

/-! ## Decoding, opcode by opcode (30_encoding.md R73 to R78) -/

/-- The eleven opcodes in use (R78). -/
def opcodes : List Byte := [0x01, 0x02, 0x03, 0x04, 0x05, 0x06, 0x07, 0x10, 0x20, 0x21, 0x22]

section
variable {w : Word}

theorem decode_wrp (h : opField w = 0x01) : decode w = .command (.wrp (regField w) (imm16Field w)) := by
  simp [decode, h]

theorem decode_rdp (h : opField w = 0x02) : decode w = ifZero (imm16Field w) (.rdp (regField w)) := by
  simp [decode, h]

theorem decode_dclr (h : opField w = 0x03) : decode w = ifZero (lowField w) .dclr := by simp [decode, h]

theorem decode_dpush (h : opField w = 0x04) : decode w = ifZero (middleField w) (.dpush (imm8Field w)) := by
  simp [decode, h]

theorem decode_dpush2 (h : opField w = 0x05) : decode w = ifZero (regField w) (.dpush2 (imm16Field w)) := by
  simp [decode, h]

theorem decode_dzero (h : opField w = 0x06) : decode w = ifZero (regField w) (.dzero (imm16Field w)) := by
  simp [decode, h]

theorem decode_rdo (h : opField w = 0x07) : decode w = ifZero (regField w) (.rdo (imm16Field w)) := by
  simp [decode, h]

theorem decode_cksum (h : opField w = 0x10) : decode w = ifZero (lowField w) .cksum := by simp [decode, h]

theorem decode_bldOuter (h : opField w = 0x20) : decode w = ifZero (regField w) (.bldOuter (imm16Field w)) := by
  simp [decode, h]

theorem decode_bldInner (h : opField w = 0x21) : decode w = ifZero (lowField w) .bldInner := by simp [decode, h]

theorem decode_bldFrame (h : opField w = 0x22) : decode w = ifZero (lowField w) .bldFrame := by simp [decode, h]

theorem decode_unknown (h : opField w ∉ opcodes) : decode w = .illegal .unknownOpcode := by
  simp only [opcodes, List.mem_cons, List.not_mem_nil, not_or] at h
  simp only [decode, h, if_false]

end

/-- R75: a word has one of the eleven opcodes, or none of them. -/
theorem opcode_cases (w : Word) :
    opField w = 0x01 ∨ opField w = 0x02 ∨ opField w = 0x03 ∨ opField w = 0x04 ∨ opField w = 0x05 ∨ opField w = 0x06 ∨
      opField w = 0x07 ∨ opField w = 0x10 ∨ opField w = 0x20 ∨ opField w = 0x21 ∨ opField w = 0x22 ∨
      opField w ∉ opcodes := by
  simp only [opcodes, List.mem_cons, List.not_mem_nil]
  tauto

/-! ## Encoding and decoding are inverse (R74, D3) -/

theorem ifZero_of_zero {n : Nat} {mbz : BitVec n} (h : mbz = 0) (i : Instr) : ifZero mbz i = .command i := if_pos h

/-- A word of format I (R73) whose must-be-zero field is 0 decodes to its command. -/
theorem decode_formatI {op : Byte} {i : Half → Instr}
    (hdecode : ∀ {w : Word}, opField w = op → decode w = ifZero (regField w) (i (imm16Field w))) (imm16 : Half) :
    decode (op ++ (0 : Byte) ++ imm16) = .command (i imm16) := by
  obtain ⟨hop, hzero, himm⟩ := fields_of_formatR op 0 imm16 _ rfl
  exact (hdecode hop).trans (by rw [ifZero_of_zero hzero, himm])

/-- Settles O2: the fields of a command's word are what its format was made of, and its must-be-zero field is 0. -/
theorem decodeInvertsEncode : Obligations.DecodeInvertsEncode := by
  intro i
  cases i with
  | wrp reg imm16 =>
    obtain ⟨hop, hreg, himm⟩ := fields_of_formatR 0x01 reg imm16 _ rfl
    exact (decode_wrp hop).trans (by rw [hreg, himm])
  | rdp reg =>
    obtain ⟨hop, hreg, hzero⟩ := fields_of_formatR 0x02 reg 0 _ rfl
    exact (decode_rdp hop).trans (by rw [ifZero_of_zero hzero, hreg])
  | dpush imm8 =>
    obtain ⟨hop, hzero, himm⟩ := fields_of_formatB 0x04 0 imm8 _ rfl
    exact (decode_dpush hop).trans (by rw [ifZero_of_zero hzero, himm])
  | dpush2 imm16 => exact decode_formatI decode_dpush2 imm16
  | dzero imm16 => exact decode_formatI decode_dzero imm16
  | rdo imm16 => exact decode_formatI decode_rdo imm16
  | bldOuter imm16 => exact decode_formatI decode_bldOuter imm16
  | dclr | cksum | bldInner | bldFrame => decide

/-! A word with the fields of a format is that format's word (R73). -/

theorem formatR_eq {w : Word} {op reg : Byte} {imm16 : Half} (hop : opField w = op) (hreg : regField w = reg)
    (himm : imm16Field w = imm16) : op ++ reg ++ imm16 = w := by
  rw [← hop, ← hreg, ← himm]
  exact (formatR_of_fields w).symm

theorem formatB_eq {w : Word} {op : Byte} {middle : Half} {imm8 : Byte} (hop : opField w = op)
    (hmiddle : middleField w = middle) (himm : imm8Field w = imm8) : op ++ middle ++ imm8 = w := by
  rw [← hop, ← hmiddle, ← himm]
  exact (formatB_of_fields w).symm

theorem formatZ_eq {w : Word} {op : Byte} {low : BitVec 24} (hop : opField w = op) (hlow : lowField w = low) :
    op ++ low = w := by
  rw [← hop, ← hlow]
  exact (formatZ_of_fields w).symm

/-- R75, a legal word: its opcode's command, its must-be-zero field 0. -/
theorem encode_of_ifZero {n : Nat} {mbz : BitVec n} {i j : Instr} {w : Word} (h : decode w = .command j)
    (hdecode : decode w = ifZero mbz i) (hword : mbz = 0 → encode i = w) : encode j = w := by
  obtain ⟨hzero, rfl⟩ := ifZero_eq_command.1 (hdecode ▸ h)
  exact hword hzero

/-- Settles O3, opcode by opcode: the decoded command's format is made of the fields of the word. -/
theorem encodeInvertsDecode : Obligations.EncodeInvertsDecode := by
  intro w i h
  rcases opcode_cases w with hop | hop | hop | hop | hop | hop | hop | hop | hop | hop | hop | hop
  · obtain rfl : Instr.wrp _ _ = i := by simpa [decode_wrp hop] using h
    exact formatR_eq hop rfl rfl
  · exact encode_of_ifZero h (decode_rdp hop) (formatR_eq hop rfl)
  · exact encode_of_ifZero h (decode_dclr hop) (formatZ_eq hop)
  · exact encode_of_ifZero h (decode_dpush hop) (fun hzero => formatB_eq hop hzero rfl)
  · exact encode_of_ifZero h (decode_dpush2 hop) (fun hzero => formatR_eq hop hzero rfl)
  · exact encode_of_ifZero h (decode_dzero hop) (fun hzero => formatR_eq hop hzero rfl)
  · exact encode_of_ifZero h (decode_rdo hop) (fun hzero => formatR_eq hop hzero rfl)
  · exact encode_of_ifZero h (decode_cksum hop) (formatZ_eq hop)
  · exact encode_of_ifZero h (decode_bldOuter hop) (fun hzero => formatR_eq hop hzero rfl)
  · exact encode_of_ifZero h (decode_bldInner hop) (formatZ_eq hop)
  · exact encode_of_ifZero h (decode_bldFrame hop) (formatZ_eq hop)
  · simp [decode_unknown hop] at h

/-! ## The table's match and mask columns (R74) -/

theorem encode_matches_row (i : Instr) : Laws.RowMatch.Statement i := by
  cases i with
  | wrp reg imm16 => exact Laws.RowMatch.wrp reg imm16
  | rdp reg => exact Laws.RowMatch.rdp reg
  | dclr => exact Laws.RowMatch.dclr
  | dpush imm8 => exact Laws.RowMatch.dpush imm8
  | dpush2 imm16 => exact Laws.RowMatch.dpush2 imm16
  | dzero imm16 => exact Laws.RowMatch.dzero imm16
  | rdo imm16 => exact Laws.RowMatch.rdo imm16
  | cksum => exact Laws.RowMatch.cksum
  | bldOuter imm16 => exact Laws.RowMatch.bldOuter imm16
  | bldInner => exact Laws.RowMatch.bldInner
  | bldFrame => exact Laws.RowMatch.bldFrame

/-- A word that matches a row decodes to a command of that row. -/
theorem decode_of_matches_row {w : Word} {r : Row} (hr : r ∈ rows) (h : r.Matches w) :
    ∃ i, decode w = .command i ∧ i.mnemonic = r.mnemonic := by
  have legal {n : Nat} {mbz : BitVec n} {i : Instr} {m : String} (hdecode : decode w = ifZero mbz i)
      (hzero : mbz = 0) (hm : i.mnemonic = m) : ∃ i, decode w = .command i ∧ i.mnemonic = m :=
    ⟨i, hdecode.trans (ifZero_of_zero hzero i), hm⟩
  simp only [rows, List.mem_cons, List.not_mem_nil, or_false] at hr
  rcases hr with rfl | rfl | rfl | rfl | rfl | rfl | rfl | rfl | rfl | rfl | rfl
  · exact ⟨_, decode_wrp ((matches_wrp w).1 h), rfl⟩
  · obtain ⟨hop, hzero⟩ := (matches_rdp w).1 h
    exact legal (decode_rdp hop) hzero rfl
  · obtain ⟨hop, hzero⟩ := (matches_formatZ w 0x03).1 h
    exact legal (decode_dclr hop) hzero rfl
  · obtain ⟨hop, hzero⟩ := (matches_dpush w).1 h
    exact legal (decode_dpush hop) hzero rfl
  · obtain ⟨hop, hzero⟩ := (matches_formatI w 0x05).1 h
    exact legal (decode_dpush2 hop) hzero rfl
  · obtain ⟨hop, hzero⟩ := (matches_formatI w 0x06).1 h
    exact legal (decode_dzero hop) hzero rfl
  · obtain ⟨hop, hzero⟩ := (matches_formatI w 0x07).1 h
    exact legal (decode_rdo hop) hzero rfl
  · obtain ⟨hop, hzero⟩ := (matches_formatZ w 0x10).1 h
    exact legal (decode_cksum hop) hzero rfl
  · obtain ⟨hop, hzero⟩ := (matches_formatI w 0x20).1 h
    exact legal (decode_bldOuter hop) hzero rfl
  · obtain ⟨hop, hzero⟩ := (matches_formatZ w 0x21).1 h
    exact legal (decode_bldInner hop) hzero rfl
  · obtain ⟨hop, hzero⟩ := (matches_formatZ w 0x22).1 h
    exact legal (decode_bldFrame hop) hzero rfl

/-- No two rows have one mnemonic. -/
theorem rows_mnemonic_injective : ∀ q ∈ rows, ∀ r ∈ rows, q.mnemonic = r.mnemonic → q = r := by decide

/-- Settles O4: a legal word is its command's word, which matches the row of its mnemonic (`encode_matches_row`); a row
that matches has the decoded command's mnemonic (`decode_of_matches_row`). -/
theorem wordMatchesOneRowOrIsIllegal : Obligations.WordMatchesOneRowOrIsIllegal := by
  intro w
  cases hw : decode w with
  | command i =>
    obtain ⟨r, hr, hm, hmatch⟩ := encode_matches_row i
    rw [encodeInvertsDecode w i hw] at hmatch
    refine .inl ⟨r, hr, hmatch, fun q hq hqw => ?_, i, rfl, hm.symm⟩
    obtain ⟨j, hj, hjm⟩ := decode_of_matches_row hq hqw
    obtain rfl : i = j := by simpa [hw] using hj
    exact rows_mnemonic_injective q hq r hr (hjm.symm.trans hm.symm)
  | illegal why =>
    refine .inr ⟨fun r hr hmatch => ?_, why, rfl⟩
    obtain ⟨i, hi, -⟩ := decode_of_matches_row hr hmatch
    simp [hw] at hi

/-! ## Illegal words (R78) -/

theorem exists_ifZero_eq_illegal {n : Nat} {mbz : BitVec n} {i : Instr} :
    (∃ why, ifZero mbz i = .illegal why) ↔ mbz ≠ 0 := by
  simp only [ifZero_eq_illegal, exists_and_left, exists_eq, and_true]

/-- The illegal words are those R78 lists. -/
theorem decode_illegal_iff (w : Word) :
    (∃ why, decode w = .illegal why) ↔
      opField w ∉ opcodes ∨
      (opField w ∈ ([0x03, 0x10, 0x21, 0x22] : List Byte) ∧ lowField w ≠ 0) ∨
      (opField w ∈ ([0x05, 0x06, 0x07, 0x20] : List Byte) ∧ regField w ≠ 0) ∨
      (opField w = 0x04 ∧ middleField w ≠ 0) ∨
      (opField w = 0x02 ∧ imm16Field w ≠ 0) := by
  have of_ifZero {n : Nat} {mbz : BitVec n} {i : Instr} {p : Prop} (hdecode : decode w = ifZero mbz i)
      (h : mbz ≠ 0 ↔ p) : (∃ why, decode w = .illegal why) ↔ p := by
    rw [hdecode, exists_ifZero_eq_illegal, h]
  rcases opcode_cases w with hop | hop | hop | hop | hop | hop | hop | hop | hop | hop | hop | hop
  · simp [decode_wrp hop, hop, opcodes]
  · exact of_ifZero (decode_rdp hop) (by simp [hop, opcodes])
  · exact of_ifZero (decode_dclr hop) (by simp [hop, opcodes])
  · exact of_ifZero (decode_dpush hop) (by simp [hop, opcodes])
  · exact of_ifZero (decode_dpush2 hop) (by simp [hop, opcodes])
  · exact of_ifZero (decode_dzero hop) (by simp [hop, opcodes])
  · exact of_ifZero (decode_rdo hop) (by simp [hop, opcodes])
  · exact of_ifZero (decode_cksum hop) (by simp [hop, opcodes])
  · exact of_ifZero (decode_bldOuter hop) (by simp [hop, opcodes])
  · exact of_ifZero (decode_bldInner hop) (by simp [hop, opcodes])
  · exact of_ifZero (decode_bldFrame hop) (by simp [hop, opcodes])
  · exact iff_of_true ⟨_, decode_unknown hop⟩ (.inl hop)

/-- Settles O5: `decode_illegal_iff`, and an illegal word raises `E_OPCODE`. -/
theorem illegalWordsAreAnsweredEOpcode : Obligations.IllegalWordsAreAnsweredEOpcode := by
  intro w s
  refine ⟨decode_illegal_iff w, decode_wrp, fun hop hzero => ?_, fun ⟨why, hw⟩ => ?_⟩
  · exact (decode_rdp hop).trans (ifZero_of_zero hzero _)
  · simp only [Machine.runWord, hw]
    exact Machine.raise_endsInError .eOpcode s

/-- Settles O1, by evaluation of the decoder on the sixteen words. -/
theorem specWordsDecode : Obligations.SpecWordsDecode := by
  unfold Obligations.SpecWordsDecode
  decide

end Sys2Proof

namespace Sys2Proof.Machine

/-! ## One edge without reset, from each state of the ports (30_encoding.md R71, R72) -/

/-- Where the ports stand when `n` more edges pass before `rsp` is offered. -/
def waitingPort : Nat → Word → Port
  | 0, rsp => .answering rsp
  | n + 1, rsp => .working n rsp

@[simp] theorem waitingPort_succ_rspValid (n : Nat) (rsp : Word) :
    (waitingPort (n + 1) rsp).outPins.rspValid = false := rfl

@[simp] theorem waitingPort_cmdReady (n : Nat) (rsp : Word) : (waitingPort n rsp).outPins.cmdReady = false := by
  cases n <;> rfl

/-- A port with a response in it has it on offer, or will have. -/
theorem Port.eq_waiting_of_pending {p : Port} {rsp : Word} (h : p.pending = some rsp) :
    ∃ n, p = waitingPort n rsp := by
  cases p with
  | held | ready => cases h
  | working n r => exact ⟨n + 1, by cases h; rfl⟩
  | answering r => exact ⟨0, by cases h; rfl⟩

theorem State.delayed_zero (s : State) : s.delayed 0 = s := by
  unfold State.delayed
  split
  · rename_i h
    cases h
  · rfl

/-- R72: a response just computed waits LAT - 1 edges. -/
theorem State.delayed_eq_waiting {s : State} {rsp : Word} (h : s.port = .answering rsp) (n : Nat) :
    s.delayed n = s.withPort (waitingPort n rsp) := by
  cases n with
  | zero => rw [State.delayed_zero, waitingPort, ← h, State.withPort_same]
  | succ n => simp only [State.delayed, h, waitingPort]

section
variable {s t : State} {e : Edge} {rest : List Edge}

theorem step_eq_runEdge (he : s.edges = e :: rest) (hrst : e.rst = false) (hk : s.offerKept e = true) :
    step s = runEdge e (s.withEdges rest) := by
  have hk' : (s.withEdges rest).offerKept e = true := hk
  simp [step, clock, he, clockEdge, hrst, hk']

/-- Only a host that keeps its word gets through an edge without reset (R202). -/
theorem offerKept_of_step (he : s.edges = e :: rest) (hrst : e.rst = false) (h : step s = .next t) :
    s.offerKept e = true := by
  cases hk : s.offerKept e with
  | true => rfl
  | false =>
    have hk' : (s.withEdges rest).offerKept e = false := hk
    simp [step, clock, he, clockEdge, hrst, hk'] at h

/-- R72: an edge at which a response is offered. -/
theorem step_answering {rsp : Word} (he : s.edges = e :: rest) (hrst : e.rst = false) (hk : s.offerKept e = true)
    (hp : s.port = .answering rsp) :
    step s = .next ((if e.rspReady then (s.withEdges rest).takeResponse else s.withEdges rest).withOffer e.offered) := by
  rw [step_eq_runEdge he hrst hk]
  simp only [runEdge, State.withEdges_port, hp]

/-- R72: an edge at which a response is not offered yet. -/
theorem step_waiting {n : Nat} {rsp : Word} (he : s.edges = e :: rest) (hrst : e.rst = false)
    (hk : s.offerKept e = true) (hp : s.port = waitingPort (n + 1) rsp) :
    step s = .next (((s.withEdges rest).withPort (waitingPort n rsp)).withOffer e.offered) := by
  rw [step_eq_runEdge he hrst hk]
  cases n <;> simp only [runEdge, State.withEdges_port, hp, waitingPort]

/-- R71: the edge at which a ready unit is offered a word runs it, and its response then waits. -/
theorem step_accepts (he : s.edges = e :: rest) (hrst : e.rst = false) (hk : s.offerKept e = true)
    (hp : s.port = .ready) (hv : e.cmdValid = true) :
    ∃ u, runWord e.cmdWord ((s.withEdges rest).withOffer none) = .next u ∧
      Did ((s.withEdges rest).withOffer none) u ∧ step s = .next (u.delayed e.stall) := by
  obtain ⟨u, hu, hd, ha⟩ := acceptEdge_next e (s.withEdges rest)
  refine ⟨u, hu, hd, ?_⟩
  rw [step_eq_runEdge he hrst hk, ← ha]
  simp only [runEdge, State.withEdges_port, hp, hv, if_true]

/-- A word first offered, or offered again, is an offer kept (R202). -/
theorem State.offerKept_of_offers (hv : e.cmdValid = true) (ho : s.offer = none ∨ s.offer = some e.cmdWord) :
    s.offerKept e = true := by
  obtain ho | ho := ho <;> simp [State.offerKept, Edge.offered, ho, hv]

theorem runWord_command {w : Word} {i : Instr} (h : decode w = .command i) (s : State) : runWord w s = exec i s := by
  simp only [runWord, h]

end

/-- Settles O8, by `step_accepts`. -/
theorem stepRunsDecodedCommand : Obligations.StepRunsDecodedCommand := by
  intro s e rest i he hrst hp hv ho hi
  obtain ⟨t, ht, hd, hstep⟩ := step_accepts he hrst (State.offerKept_of_offers hv ho) hp hv
  obtain ⟨rsp, hrsp⟩ := hd.answers
  exact ⟨t, rsp, runWord_command hi _ ▸ ht, hrsp, hstep, t.delayed_zero, fun n => State.delayed_eq_waiting hrsp (n + 1)⟩

theorem withFetchWord_32 (s : State) (w : Word) : s.withFetchWord 32 w.toNat = s.placeWord w := by
  simp [State.withFetchWord, Nat.mod_eq_of_lt w.isLt]

/-- Settles O9: the edge placed is one that `step_accepts` speaks of, with LAT = 1. -/
theorem placedWordRunsNext : Obligations.PlacedWordRunsNext := by
  intro s w i hi
  obtain ⟨t, ht, -, hstep⟩ := step_accepts (s := s.placeWord w) (e := offerEdge w) (rest := s.edges) rfl rfl rfl rfl rfl
  calc step (s.withFetchWord 32 w.toNat)
      = step (s.placeWord w) := by rw [withFetchWord_32]
    _ = .next (t.delayed 0) := hstep
    _ = .next t := by rw [State.delayed_zero]
    _ = runWord w (s.takeResponse.withOffer none) := ht.symm
    _ = exec i (s.takeResponse.withOffer none) := runWord_command hi _

/-! ## The two channels (R71, R72) -/

/-- R71: while a response is in the unit, `cmd_ready` is 0. -/
theorem Port.not_ready_of_pending {p : Port} (h : p.pending ≠ none) : p.outPins.cmdReady = false := by
  cases p with
  | ready => exact absurd rfl h
  | held | working | answering => rfl

theorem State.accepts_iff_ready {s : State} {e : Edge} {rest : List Edge} (he : s.edges = e :: rest) :
    s.accepts = some e.cmdWord ↔ e.rst = false ∧ e.cmdValid = true ∧ s.port = .ready := by
  rw [State.accepts_eq_some]
  constructor
  · rintro ⟨e', rest', he', hrst, hp, hv, -⟩
    obtain ⟨rfl, -⟩ : e = e' ∧ rest = rest' := by simpa [he] using he'
    exact ⟨hrst, hv, hp⟩
  · rintro ⟨hrst, hv, hp⟩
    exact ⟨e, rest, he, hrst, hp, hv, rfl⟩

theorem State.accepts_of_pending {s : State} (h : s.port.pending ≠ none) : s.accepts = none := by
  refine Option.eq_none_iff_forall_ne_some.2 fun w ha => ?_
  obtain ⟨-, -, -, -, hp, -⟩ := State.accepts_eq_some.1 ha
  exact h (by rw [hp]; rfl)

/-- Settles O10: an accepted word leaves its response in the unit, and only a transfer takes it out again. -/
theorem readyOnlyWithoutCommandInUnit : Obligations.ReadyOnlyWithoutCommandInUnit := by
  refine ⟨fun s t w ha h => ?_, fun s e rest he => State.accepts_iff_ready he, fun s t e rest rsp he hrst hpend h => ?_⟩
  · obtain ⟨u, n, -, hd, -, rfl⟩ := step_of_accepts ha h
    obtain ⟨rsp, hrsp⟩ := hd.answers
    have hpend : (u.delayed n).port.pending ≠ none := by rw [State.delayed_pending, hrsp]; exact nofun
    exact ⟨Port.not_ready_of_pending hpend, hpend⟩
  · refine ⟨State.accepts_of_pending (by rw [hpend]; exact nofun), ?_⟩
    have hk := offerKept_of_step he hrst h
    obtain ⟨n, hp⟩ := Port.eq_waiting_of_pending hpend
    cases n with
    | zero =>
      obtain rfl := Host.Outcome.next.inj ((step_answering he hrst hk hp).symm.trans h)
      cases hr : e.rspReady <;> simp [hp, waitingPort, Port.outPins]
    | succ n =>
      obtain rfl := Host.Outcome.next.inj ((step_waiting he hrst hk hp).symm.trans h)
      simp [hp]

/-- R72: an edge at which no response is offered transfers none. -/
theorem step_delivered_of_not_offered {s t : State} (h : step s = .next t) (hv : s.port.outPins.rspValid = false) :
    t.delivered = s.delivered := by
  obtain ⟨-, rfl⟩ | ⟨e, rest, -, ⟨-, rfl⟩ | ⟨-, -, hcases⟩⟩ := step_cases h
  · rfl
  · rfl
  · obtain ⟨-, rfl⟩ | ⟨-, -, rfl⟩ | ⟨-, -, u, -, hd, rfl⟩ | ⟨_, -, rfl⟩ | ⟨_, _, -, rfl⟩ | ⟨_, -, -, rfl⟩ |
      ⟨rsp, hp, -, -⟩ := hcases
    · rfl
    · rfl
    · rw [State.delayed_eq]
      exact hd.sameOutside.delivered
    · rfl
    · rfl
    · rfl
    · simp [hp, Port.outPins] at hv

/-- Settles O11: an answering unit by `step_answering`, every other by `step_delivered_of_not_offered`. -/
theorem responseHeldUntilTransferred : Obligations.ResponseHeldUntilTransferred := by
  intro s t e rest he hrst h
  have hk := offerKept_of_step he hrst h
  refine ⟨fun rsp hp hr => ?_, fun rsp hp hr => ?_, step_delivered_of_not_offered h⟩
  · obtain rfl := Host.Outcome.next.inj ((step_answering he hrst hk hp).symm.trans h)
    simp [hr, hp, Port.pending]
  · obtain rfl := Host.Outcome.next.inj ((step_answering he hrst hk hp).symm.trans h)
    simp [hr, hp, Port.outPins]

/-! ## Latency (R72, R201, R204) -/

theorem keepsOffers_cons {s : State} {e : Edge} {es : List Edge} :
    keepsOffers s.offer (e :: es) = true ↔ s.offerKept e = true ∧ keepsOffers e.offered es = true := by
  unfold State.offerKept
  cases s.offer <;> simp [keepsOffers]

theorem keepsOffers_of_append {o : Option Word} {xs ys : List Edge} (h : keepsOffers o (xs ++ ys) = true) :
    keepsOffers o xs = true := by
  induction xs generalizing o with
  | nil => cases o <;> rfl
  | cons x xs ih =>
    cases o with
    | none => exact ih h
    | some w =>
      obtain ⟨hx, hxs⟩ : (x.offered == some w) = true ∧ keepsOffers x.offered (xs ++ ys) = true := by
        simpa [keepsOffers] using h
      simp only [keepsOffers, hx, ih hxs, Bool.and_self]

/-- A response in the unit comes nearer with every edge, whatever the host does that keeps its offers. -/
theorem State.after_waits {rsp : Word} {more : List Edge} (xs : List Edge) (m : Nat) (s : State)
    (hp : s.port = waitingPort (xs.length + m) rsp) (he : s.edges = xs ++ more) (hrst : ∀ x ∈ xs, x.rst = false)
    (hk : keepsOffers s.offer xs = true) :
    ∃ t, s.after xs.length = .next t ∧ t.port = waitingPort m rsp ∧ t.edges = more ∧ t.delivered = s.delivered := by
  induction xs generalizing s with
  | nil => exact ⟨s, rfl, by simpa using hp, he, rfl⟩
  | cons x xs ih =>
    obtain ⟨hx, hxs⟩ := keepsOffers_cons.1 hk
    have hp' : s.port = waitingPort (xs.length + m + 1) rsp := by rw [hp, List.length_cons, Nat.add_right_comm]
    have hstep := step_waiting he (hrst x List.mem_cons_self) hx hp'
    obtain ⟨t, ht, hport, hedges, hdel⟩ :=
      ih (((s.withEdges (xs ++ more)).withPort (waitingPort (xs.length + m) rsp)).withOffer x.offered) rfl rfl
        (fun y hy => hrst y (List.mem_cons_of_mem x hy)) hxs
    exact ⟨t, State.after_succ_eq_next.2 ⟨_, hstep, ht⟩, hport, hedges, hdel⟩

/-- After the accepting edge and the waits `xs`, `m` of the command's LAT - 1 waits are left. -/
theorem State.after_accept_waits {s : State} {e : Edge} {xs more : List Edge} {m : Nat} {w : Word}
    (he : s.edges = e :: (xs ++ more)) (ha : s.accepts = some w) (hk : s.offerKept e = true)
    (hstall : e.stall = xs.length + m) (hrst : ∀ x ∈ xs, x.rst = false) (hxs : keepsOffers none xs = true) :
    ∃ t rsp, s.after (xs.length + 1) = .next t ∧ t.port = waitingPort m rsp ∧ t.edges = more ∧
      t.delivered = s.delivered := by
  obtain ⟨e', rest', he', hr, hp, hv, -⟩ := State.accepts_eq_some.1 ha
  obtain ⟨rfl, -⟩ : e = e' ∧ xs ++ more = rest' := by simpa [he] using he'
  obtain ⟨u, -, hd, hstep⟩ := step_accepts he hr hk hp hv
  obtain ⟨rsp, hrsp⟩ := hd.answers
  obtain ⟨-, hoffer, hedges, hdel⟩ := hd.sameOutside
  rw [State.delayed_eq_waiting hrsp, hstall] at hstep
  obtain ⟨t, ht, htport, htedges, htdel⟩ :=
    State.after_waits xs m (u.withPort (waitingPort (xs.length + m) rsp)) rfl hedges hrst
      (by rw [State.withPort_offer, hoffer]; exact hxs)
  exact ⟨t, rsp, State.after_succ_eq_next.2 ⟨_, hstep, ht⟩, htport, htedges, htdel.trans hdel⟩

/-- Settles O12, by `State.after_accept_waits` for all the waits and for the first `k - 1` of them. -/
theorem responseOfferedAfterLatency : Obligations.ResponseOfferedAfterLatency := by
  intro s e waits more w he ha hk hlen hrst hkeeps
  constructor
  · rw [← hlen]
    exact State.after_accept_waits (m := 0) he ha hk hlen.symm hrst hkeeps
  · intro k u hk1 hks hu
    obtain ⟨j, rfl⟩ : ∃ j, k = j + 1 := ⟨k - 1, by omega⟩
    have hsplit : waits = waits.take j ++ waits.drop j := (List.take_append_drop j waits).symm
    have hj : (waits.take j).length = j := by rw [List.length_take]; omega
    have he' : s.edges = e :: (waits.take j ++ (waits.drop j ++ more)) := by
      rw [← List.append_assoc, List.take_append_drop, he]
    obtain ⟨t, rsp, ht, hport, -⟩ := State.after_accept_waits (m := e.stall - 1 - j + 1) he' ha hk (by omega)
      (fun x hx => hrst x (List.mem_of_mem_take hx)) (keepsOffers_of_append (hsplit ▸ hkeeps))
    rw [hj] at ht
    obtain rfl : t = u := Host.Outcome.next.inj (ht.symm.trans hu)
    rw [hport, waitingPort_succ_rspValid]

end Sys2Proof.Machine

namespace Sys2Proof.Machine

/-! ## The formats as numbers (30_encoding.md R73) -/

theorem formatR_toNat (op reg : Byte) (imm16 : Half) :
    (op ++ reg ++ imm16).toNat = op.toNat * 2 ^ 24 + reg.toNat * 65536 + imm16.toNat := by
  rw [append_toNat, append_toNat]
  omega

theorem formatI_toNat (op : Byte) (imm16 : Half) :
    (op ++ (0 : Byte) ++ imm16).toNat = op.toNat * 2 ^ 24 + imm16.toNat := by
  simpa using formatR_toNat op 0 imm16

theorem formatB_toNat (op imm8 : Byte) : (op ++ (0 : Half) ++ imm8).toNat = op.toNat * 2 ^ 24 + imm8.toNat := by
  have hzero : (0 : Half).toNat = 0 := rfl
  rw [append_toNat, append_toNat]
  omega

theorem encode_wrp_toNat (reg : Byte) (imm16 : Half) :
    (encode (.wrp reg imm16)).toNat = 0x01000000 + reg.toNat * 65536 + imm16.toNat := formatR_toNat 0x01 reg imm16

theorem encode_rdp_toNat (reg : Byte) : (encode (.rdp reg)).toNat = 0x02000000 + reg.toNat * 65536 :=
  formatR_toNat 0x02 reg 0

theorem encode_dpush_toNat (imm8 : Byte) : (encode (.dpush imm8)).toNat = 0x04000000 + imm8.toNat :=
  formatB_toNat 0x04 imm8

/-! ## The assembler (R85, R86) -/

theorem assemble_of_wf {l : Line} (h : l.wf = true) : assemble l = some (expand l) := if_pos h

theorem assemble_eq_none {l : Line} (h : ¬ l.wf = true) : assemble l = none := if_neg h

/-- A number that fits a field is the field's value (R85). -/
theorem ofNat_toNat_of_fits {bits n : Nat} (h : n < 2 ^ bits) : (BitVec.ofNat bits n).toNat = n := by
  rw [BitVec.toNat_ofNat, Nat.mod_eq_of_lt h]

/-- The line is assembled to one word, the number `n`, when its operands fit (`p`), and else refused (R85). -/
abbrev AssemblesTo (l : Line) (p : Prop) [Decidable p] (n : Nat) : Prop :=
  if p then ∃ i, assemble l = some [i] ∧ (encode i).toNat = n else assemble l = none

theorem assemblesTo {l : Line} {p : Prop} [Decidable p] {i : Instr} {n : Nat} (hwf : l.wf = true ↔ p)
    (hexpand : expand l = [i]) (hn : p → (encode i).toNat = n) : AssemblesTo l p n := by
  unfold AssemblesTo
  split
  · rename_i hp
    exact ⟨i, (assemble_of_wf (hwf.2 hp)).trans (congrArg some hexpand), hn hp⟩
  · rename_i hp
    exact assemble_eq_none (mt hwf.1 hp)

theorem assemblesTo_wrp {reg : RegOperand} {r v : Nat} {p : Prop} [Decidable p]
    (hp : reg.wf = true ∧ v < 65536 ↔ p) (hr : p → (regIndex reg).toNat = r) :
    AssemblesTo (.wrp reg v) p (0x01000000 + r * 65536 + v) := by
  refine assemblesTo (by simp [Line.wf, ← hp]) rfl fun h => ?_
  rw [encode_wrp_toNat, hr h, ofNat_toNat_of_fits (hp.2 h).2]

/-- A mnemonic with one 16-bit immediate: its opcode's number and the operand. -/
theorem assemblesTo_formatI {line : Nat → Line} {i : Half → Instr} {op : Byte} (hwf : ∀ v, (line v).wf = fits 16 v)
    (hexpand : ∀ v, expand (line v) = [i (BitVec.ofNat 16 v)])
    (hword : ∀ v, encode (i v) = op ++ (0 : Byte) ++ v) (v : Nat) :
    AssemblesTo (line v) (v < 65536) (op.toNat * 2 ^ 24 + v) := by
  refine assemblesTo (by simp [hwf]) (hexpand v) fun hv => ?_
  rw [hword, formatI_toNat, ofNat_toNat_of_fits hv]

/-- Settles O7: each command line by `assemblesTo`; every refusal because the line is not well-formed. -/
theorem assembledWordIsTheFormatsNumber : Obligations.AssembledWordIsTheFormatsNumber := by
  refine ⟨fun r v => ?wrp, fun r => ?rdp, fun v => ?dpush, ?formatI, fun p hp => ?named, by decide,
    fun n hn => ?number, fun a b c d h => ?dotted, fun octets ⟨b, hb, hbig⟩ => ?dload, fun n hn => ?dfillz,
    fun k hk => ?rdo16⟩
  case wrp => exact assemblesTo_wrp (by simp [RegOperand.wf]) fun h => ofNat_toNat_of_fits h.1
  case rdp =>
    refine assemblesTo (by simp [Line.wf, RegOperand.wf]) rfl fun h => ?_
    rw [encode_rdp_toNat, regIndex, ofNat_toNat_of_fits h]
  case dpush =>
    refine assemblesTo (by simp [Line.wf]) rfl fun h => ?_
    rw [encode_dpush_toNat, ofNat_toNat_of_fits h]
  case formatI =>
    simp only [List.forall_mem_cons, List.not_mem_nil, false_imp_iff, implies_true, and_true]
    exact ⟨assemblesTo_formatI (i := .dpush2) (op := 0x05) (fun _ => rfl) (fun _ => rfl) (fun _ => rfl),
      assemblesTo_formatI (i := .dzero) (op := 0x06) (fun _ => rfl) (fun _ => rfl) (fun _ => rfl),
      assemblesTo_formatI (i := .rdo) (op := 0x07) (fun _ => rfl) (fun _ => rfl) (fun _ => rfl),
      assemblesTo_formatI (i := .bldOuter) (op := 0x20) (fun _ => rfl) (fun _ => rfl) (fun _ => rfl)⟩
  case named =>
    have hindex : (indexOfReg p.1).toNat = p.2 := by
      revert p
      decide
    exact ⟨⟨_, assemble_of_wf rfl, by rw [encode_rdp_toNat, regIndex, hindex]⟩,
      fun v => assemblesTo_wrp (by simp [RegOperand.wf]) fun _ => hindex⟩
  case number =>
    have hwf : ¬ (AddrOperand.number n).wf = true := by simpa [AddrOperand.wf] using hn
    exact ⟨assemble_eq_none hwf, assemble_eq_none hwf⟩
  case dotted =>
    have hwf : ¬ (AddrOperand.dotted a b c d).wf = true := by
      simp only [AddrOperand.wf, Bool.and_eq_true, decide_eq_true_eq]
      omega
    exact ⟨assemble_eq_none hwf, assemble_eq_none hwf⟩
  case dload =>
    refine assemble_eq_none fun hall => ?_
    have hfits : b < 256 := by simpa using List.all_eq_true.1 hall b hb
    omega
  case dfillz => exact assemble_eq_none (by simpa [Line.wf] using hn)
  case rdo16 =>
    refine assemble_eq_none ?_
    simp only [Line.wf, Bool.and_eq_true, decide_eq_true_eq]
    omega

/-! The pseudo-instructions' operands (R86). -/

theorem highHalf_ofNat (n : Nat) (h : n < 2 ^ 32) :
    (BitVec.ofNat 32 n).extractLsb' 16 16 = BitVec.ofNat 16 (n / 65536) := by
  apply BitVec.eq_of_toNat_eq
  rw [extract_toNat, ofNat_toNat_of_fits h, BitVec.toNat_ofNat]
  rfl

theorem lowHalf_ofNat (n : Nat) (h : n < 2 ^ 32) : (BitVec.ofNat 32 n).extractLsb' 0 16 = BitVec.ofNat 16 n := by
  apply BitVec.eq_of_toNat_eq
  rw [extract_toNat, ofNat_toNat_of_fits h, BitVec.toNat_ofNat, Nat.pow_zero, Nat.div_one]

/-- `WRP high, imm32[31:16] ; WRP low, imm32[15:0]` (R86). -/
theorem writeAddr_ofNat {n : Nat} (h : n < 2 ^ 32) (high low : ParamReg) :
    writeAddr high low (BitVec.ofNat 32 n) =
      [.wrp (indexOfReg (.param high)) (BitVec.ofNat 16 (n / 65536)),
        .wrp (indexOfReg (.param low)) (BitVec.ofNat 16 n)] := by
  rw [writeAddr, highHalf_ofNat n h, lowHalf_ofNat n h]

theorem number_wf {n : Nat} (h : n < 2 ^ 32) : (AddrOperand.number n).wf = true := by simpa [AddrOperand.wf] using h

/-- `a` is the most significant octet (R86). -/
theorem addrValue_dotted (a : Nat) {b c d : Nat} (hb : b < 256) (hc : c < 256) (hd : d < 256) :
    addrValue (.dotted a b c d) = addrValue (.number (((a * 256 + b) * 256 + c) * 256 + d)) := by
  apply BitVec.eq_of_toNat_eq
  simp only [addrValue, append_toNat, BitVec.toNat_ofNat]
  omega

theorem assemble_setsrc {addr : AddrOperand} (h : addr.wf = true) :
    assemble (.setsrc addr) = some (writeAddr .srch .srcl (addrValue addr)) := assemble_of_wf (l := .setsrc addr) h

theorem assemble_setdst {addr : AddrOperand} (h : addr.wf = true) :
    assemble (.setdst addr) = some (writeAddr .dsth .dstl (addrValue addr)) := assemble_of_wf (l := .setdst addr) h

/-- Settles O6, one pseudo-instruction after the other. -/
theorem pseudoInstructionsExpand : Obligations.PseudoInstructionsExpand := by
  refine ⟨fun n hn => ?setsrc, fun n hn => ?setdst, fun a ha b hb c hc d hd => ?dotted, fun octets => ?dload,
    fun n => ?dfillz, fun k hk => ?rdo16⟩
  case setsrc => exact (assemble_setsrc (number_wf hn)).trans (congrArg some (writeAddr_ofNat hn .srch .srcl))
  case setdst => exact (assemble_setdst (number_wf hn)).trans (congrArg some (writeAddr_ofNat hn .dsth .dstl))
  case dotted =>
    have hdotted : (AddrOperand.dotted a b c d).wf = true := by simp [AddrOperand.wf, ha, hb, hc, hd]
    have hnumber : (AddrOperand.number (((a * 256 + b) * 256 + c) * 256 + d)).wf = true := number_wf (by omega)
    rw [assemble_setsrc hdotted, assemble_setsrc hnumber, assemble_setdst hdotted, assemble_setdst hnumber,
      addrValue_dotted a hb hc hd]
    exact ⟨rfl, rfl⟩
  case dload =>
    have hwf : (Line.dload (octets.map BitVec.toNat)).wf = true := by
      simpa [Line.wf] using fun (b : Byte) (_ : b ∈ octets) => b.isLt
    rw [assemble_of_wf hwf]
    simp [expand, Function.comp_def]
  case dfillz =>
    rw [assemble_of_wf (by simp [Line.wf, n.isLt])]
    simp [expand]
  case rdo16 =>
    have hwf : (Line.rdo16 k.toNat).wf = true := by
      simp only [Line.wf, Bool.and_eq_true, decide_eq_true_eq]
      omega
    rw [assemble_of_wf hwf]
    simp [expand, BitVec.ofNat_add]

end Sys2Proof.Machine

namespace Sys2Proof.Machine

/-! ## The layout of headers and frames (30_encoding.md R81 to R84) -/

/-- A 32-bit field is its two halves, the high one first (R54). -/
theorem be32_append (h l : Half) : be32 (h ++ l) = be16 h ++ be16 l := by
  have hw : (h ++ l).toNat = h.toNat * 2 ^ 16 + l.toNat := append_toNat h l
  have hh : (h ++ l).extractLsb' 16 16 = h := by
    apply BitVec.eq_of_toNat_eq
    rw [extract_toNat]
    omega
  have hl : (h ++ l).extractLsb' 0 16 = l := by
    apply BitVec.eq_of_toNat_eq
    rw [extract_toNat]
    omega
  rw [be32, hh, hl]

@[simp] theorem be16_wordOf (h l : Byte) : be16 (wordOf h l) = [h, l] := by
  rw [be16, hiOctet_wordOf, loOctet_wordOf]

/-- The checksum words of a list of words, each serialized high octet first, are those words (R52, R53). -/
theorem summedWords_octetsOf (b : Bool) (ws : List Half) : summedWords b (octetsOf ws) = ws := by
  induction ws with
  | nil => exact summedWords_nil b
  | cons v ws ih => rw [octetsOf, List.flatMap_cons, summedWords_be16, ← octetsOf, ih]

/-- R81 as the ten words W0 to W9. -/
theorem outerBytes_eq_octetsOf (p : Params) (following : Nat) (ttl proto : Byte) (srch srcl dsth dstl ck : Half) :
    outerBytes p following ttl proto (srch ++ srcl) (dsth ++ dstl) ck =
      octetsOf [wordOf (p.ipVersion ++ p.ipIhl) p.ipTos, lengthHalf (20 + following), p.ipIdent, p.ipFlagsFrag,
        wordOf ttl proto, ck, srch, srcl, dsth, dstl] := by
  simp only [outerBytes, octetsOf, be32_append, List.flatMap_cons, List.flatMap_nil, be16_wordOf, List.append_assoc,
    List.append_nil]

/-- Settles O41: the header is its ten words (`outerBytes_eq_octetsOf`), with the checksum in its place. -/
theorem outerHeaderLayout : Obligations.OuterHeaderLayout := by
  intro p following ttl proto srch srcl dsth dstl hfits
  refine ⟨lengthHalf (20 + following), _, lengthHalf_toNat (by omega), rfl, ?_, fun b => ?_⟩
  · rw [buildOuter, outerBytes_eq_octetsOf]
    simp only [octetsOf, List.flatMap_cons, List.flatMap_nil, be16_wordOf]
    rfl
  · rw [buildOuter, outerBytes_eq_octetsOf, summedWords_octetsOf]
    rfl

theorem buildInner_length (p : Params) (sp dp : Half) (pay : List Byte) :
    (buildInner p sp dp pay).length = 8 + pay.length := innerBytes_length ..

/-- R83: the outer header is built for `L = 8 + P`. -/
theorem buildFrame_eq_append (p : Params) (ttl proto : Byte) (src dst : Word) (sp dp : Half) (pay : List Byte) :
    buildFrame p ttl proto src dst sp dp pay =
      buildOuter p (8 + pay.length) ttl proto src dst ++ buildInner p sp dp pay := by
  rw [buildFrame, buildInner_length]

/-- R82: the payload follows the inner header's 8 octets. -/
theorem innerBytes_drop (sp dp : Half) (pay : List Byte) (ck : Half) : (innerBytes sp dp pay ck).drop 8 = pay := rfl

/-- Settles O42. The frame's octets from 28 on are the inner result's from 8 on. -/
theorem innerHeaderAndFrameLayout : Obligations.InnerHeaderAndFrameLayout := by
  intro p ttl proto src dst sp dp pay hfits
  refine ⟨lengthHalf (8 + pay.length), _, lengthHalf_toNat (by omega), rfl, rfl, buildFrame_eq_append .., ?_⟩
  calc (buildFrame p ttl proto src dst sp dp pay).drop 28
      = (buildOuter p (8 + pay.length) ttl proto src dst ++ buildInner p sp dp pay).drop (20 + 8) := by
        rw [buildFrame_eq_append]
    _ = (buildInner p sp dp pay).drop 8 := List.drop_append ..
    _ = pay := innerBytes_drop ..

end Sys2Proof.Machine

namespace Sys2Proof.Machine

/-! ## The folded sum as a number (40_checksum.md R100, R101, R104) -/

/-- The closed form of R104: 0 stays 0, and every other number goes to its residue among 1 to 65535. -/
def endAroundFold (t : Nat) : Nat := if t = 0 then 0 else (t - 1) % 65535 + 1

theorem endAroundFold_of_le {t : Nat} (h : t ≤ 65535) : endAroundFold t = t := by
  unfold endAroundFold
  split <;> omega

theorem endAroundFold_le (t : Nat) : endAroundFold t ≤ 65535 := by
  unfold endAroundFold
  split <;> omega

theorem endAroundFold_eq_zero {t : Nat} : endAroundFold t = 0 ↔ t = 0 := by
  unfold endAroundFold
  split <;> omega

theorem endAroundFold_eq_max {t : Nat} : endAroundFold t = 65535 ↔ 0 < t ∧ 65535 ∣ t := by
  unfold endAroundFold
  split <;> omega

/-- Folding a part early does not change the result. -/
theorem endAroundFold_add_left (t u : Nat) : endAroundFold (endAroundFold t + u) = endAroundFold (t + u) := by
  unfold endAroundFold
  split
  · rw [‹t = 0›]
  · rw [if_neg (by omega), if_neg (by omega)]
    omega

theorem endAroundFold_add_right (t u : Nat) : endAroundFold (t + endAroundFold u) = endAroundFold (t + u) := by
  rw [Nat.add_comm, endAroundFold_add_left, Nat.add_comm]

/-- The carry test of R100: a sum has a bit above the 16 low ones exactly if it exceeds 65535. -/
theorem and_highHalf_ne_zero (w : Word) : w &&& 0xFFFF0000 ≠ 0 ↔ 65535 < w.toNat := by
  have hzero : w &&& 0xFFFF0000 = 0 ↔ opField w = 0 ∧ regField w = 0 := matches_formatI w 0x00
  have hop := opField_toNat w
  have hreg := regField_toNat w
  have h0 : (0 : Byte).toNat = 0 := rfl
  rw [Ne, hzero, ← BitVec.toNat_inj, ← BitVec.toNat_inj, hop, hreg, h0]
  omega

theorem and_lowHalf_toNat (w : Word) : (w &&& 0x0000FFFF).toNat = w.toNat % 65536 :=
  (BitVec.toNat_and ..).trans (Nat.and_two_pow_sub_one_eq_mod w.toNat 16)

/-- Settles O28: the 32-bit sum does not wrap, and masking and incrementing it takes 65535 away. -/
theorem ocAddFoldsTheCarry : Obligations.OcAddFoldsTheCarry := by
  intro a b
  have ha := a.isLt
  have hb := b.isLt
  have hsum : (a.setWidth 32 + b.setWidth 32).toNat = a.toNat + b.toNat := by
    rw [BitVec.toNat_add, BitVec.toNat_setWidth, BitVec.toNat_setWidth]
    omega
  simp only [ocAdd, and_highHalf_ne_zero, hsum]
  by_cases hcarry : a.toNat + b.toNat ≤ 65535
  · rw [if_neg (Nat.not_lt.2 hcarry), if_pos hcarry, extract_toNat, hsum]
    omega
  · have hone : (1 : Word).toNat = 1 := rfl
    rw [if_pos (Nat.not_le.1 hcarry), if_neg hcarry, extract_toNat, BitVec.toNat_add, and_lowHalf_toNat, hsum, hone]
    omega

theorem ocAdd_toNat (a b : Half) : (ocAdd a b).toNat = endAroundFold (a.toNat + b.toNat) := by
  have ha := a.isLt
  have hb := b.isLt
  rw [ocAddFoldsTheCarry a b, endAroundFold]
  split <;> split <;> omega

@[simp] theorem wideSum_nil : wideSum [] = 0 := rfl

@[simp] theorem wideSum_cons (v : Half) (ws : List Half) : wideSum (v :: ws) = v.toNat + wideSum ws := by
  simp [wideSum]

@[simp] theorem wideSum_append (x y : List Half) : wideSum (x ++ y) = wideSum x + wideSum y := by simp [wideSum]

@[simp] theorem wideSum_replicate_zero (n : Nat) : wideSum (List.replicate n 0x0000) = 0 := by simp [wideSum]

theorem wideSum_perm {x y : List Half} (h : x.Perm y) : wideSum x = wideSum y := (h.map _).sum_eq

theorem foldl_ocAdd_toNat (ws : List Half) (a : Half) :
    (ws.foldl ocAdd a).toNat = endAroundFold (a.toNat + wideSum ws) := by
  induction ws generalizing a with
  | nil => exact (endAroundFold_of_le (Nat.le_of_lt_succ a.isLt)).symm
  | cons v ws ih => rw [List.foldl_cons, ih, ocAdd_toNat, endAroundFold_add_left, wideSum_cons, Nat.add_assoc]

/-- Adding words one by one gives the closed form of their natural sum (R104). -/
theorem foldl_ocAdd_zero_toNat (ws : List Half) : (ws.foldl ocAdd 0x0000).toNat = endAroundFold (wideSum ws) :=
  (foldl_ocAdd_toNat ws 0x0000).trans (congrArg endAroundFold (Nat.zero_add _))

theorem foldedSum_toNat (b : Bool) (bs : List Byte) :
    (foldedSum b bs).toNat = endAroundFold (wideSum (summedWords b bs)) := foldl_ocAdd_zero_toNat _

theorem cksum_toNat (b : Bool) (bs : List Byte) : (cksum b bs).toNat = 65535 - (foldedSum b bs).toNat := by
  rw [cksum, BitVec.toNat_not]

theorem foldl_ocAdd_perm {x y : List Half} (h : x.Perm y) : x.foldl ocAdd 0x0000 = y.foldl ocAdd 0x0000 := by
  apply BitVec.eq_of_toNat_eq
  rw [foldl_ocAdd_zero_toNat, foldl_ocAdd_zero_toNat, wideSum_perm h]

theorem ocAdd_comm (a b : Half) : ocAdd a b = ocAdd b a := by
  apply BitVec.eq_of_toNat_eq
  rw [ocAdd_toNat, ocAdd_toNat, Nat.add_comm]

theorem ocAdd_assoc (a b c : Half) : ocAdd (ocAdd a b) c = ocAdd a (ocAdd b c) := by
  apply BitVec.eq_of_toNat_eq
  simp only [ocAdd_toNat, endAroundFold_add_left, endAroundFold_add_right, Nat.add_assoc]

theorem ocAdd_zero (a : Half) : ocAdd a 0x0000 = a := by
  apply BitVec.eq_of_toNat_eq
  exact (ocAdd_toNat a 0x0000).trans (endAroundFold_of_le (Nat.le_of_lt_succ a.isLt))

/-- 0xFFFF, the other zero of one's-complement arithmetic, changes no word but 0x0000. -/
theorem ocAdd_ones {a : Half} (h : a ≠ 0x0000) : ocAdd a 0xFFFF = a := by
  have ha := a.isLt
  have hpos : a.toNat ≠ 0 := fun h0 => h (BitVec.eq_of_toNat_eq h0)
  have hones : (0xFFFF : Half).toNat = 65535 := rfl
  apply BitVec.eq_of_toNat_eq
  rw [ocAddFoldsTheCarry a 0xFFFF, hones, if_neg (by omega)]
  omega

/-- Settles O29, law by law through the closed form. -/
theorem ocAddIsCommutativeMonoid : Obligations.OcAddIsCommutativeMonoid :=
  ⟨ocAdd_comm, ocAdd_assoc, ocAdd_zero, fun _ => ocAdd_ones, by decide, fun _ _ _ => foldl_ocAdd_perm⟩

theorem foldedSum_eq_ones {b : Bool} {bs : List Byte} :
    foldedSum b bs = 0xFFFF ↔ 0 < wideSum (summedWords b bs) ∧ 65535 ∣ wideSum (summedWords b bs) := by
  rw [← BitVec.toNat_inj, foldedSum_toNat]
  exact endAroundFold_eq_max

theorem cksum_eq_ones {b : Bool} {bs : List Byte} : cksum b bs = 0xFFFF ↔ wideSum (summedWords b bs) = 0 := by
  have hle := endAroundFold_le (wideSum (summedWords b bs))
  have hones : (0xFFFF : Half).toNat = 65535 := rfl
  rw [← BitVec.toNat_inj, cksum_toNat, foldedSum_toNat, ← endAroundFold_eq_zero, hones]
  omega

theorem cksum_eq_zero {b : Bool} {bs : List Byte} :
    cksum b bs = 0x0000 ↔ 0 < wideSum (summedWords b bs) ∧ 65535 ∣ wideSum (summedWords b bs) := by
  rw [← foldedSum_eq_ones, cksum, BitVec.not_eq_comm]
  rfl

/-- Settles O30: `foldedSum_toNat` is the closed form, and the extremes are those of `endAroundFold`. -/
theorem checksumClosedForm : Obligations.ChecksumClosedForm := fun b bs =>
  ⟨foldedSum_toNat b bs, cksum_toNat b bs, foldedSum_eq_ones, cksum_eq_ones, cksum_eq_zero⟩

/-! ## The deferred fold and the adder trees (R107, R113) -/

/-- A round of the deferred fold keeps the closed form: 65536 is 1 modulo 65535. -/
theorem endAroundFold_round {t : Nat} (h : 0xFFFF < t) :
    endAroundFold ((t &&& 0xFFFF) + (t >>> 16)) = endAroundFold t ∧ (t &&& 0xFFFF) + (t >>> 16) < t := by
  have hlow : t &&& 0xFFFF = t % 65536 := Nat.and_two_pow_sub_one_eq_mod t 16
  rw [hlow, Nat.shiftRight_eq_div_pow]
  refine ⟨?_, by omega⟩
  unfold endAroundFold
  rw [if_neg (by omega), if_neg (by omega)]
  omega

theorem foldRounds_eq {rounds t : Nat} (h : t ≤ rounds) : foldRounds rounds t = endAroundFold t := by
  induction rounds generalizing t with
  | zero => rw [Nat.le_zero.1 h]; rfl
  | succ n ih =>
    rw [foldRounds]
    split
    · obtain ⟨hfold, hless⟩ := endAroundFold_round ‹t > 0xFFFF›
      rw [ih (by omega), hfold]
    · exact (endAroundFold_of_le (by omega)).symm

theorem deferredFold_eq (t : Nat) : deferredFold t = endAroundFold t := foldRounds_eq t.le_refl

theorem wideSum_le (ws : List Half) : wideSum ws ≤ ws.length * 65535 := by
  induction ws with
  | nil => exact Nat.le_refl 0
  | cons v ws ih =>
    have hv := v.isLt
    rw [wideSum_cons, List.length_cons]
    omega

/-- A sequence has a word for every two octets and at most one for an odd last octet (R101). -/
theorem summedWords_length_le (b : Bool) : ∀ bs : List Byte, (summedWords b bs).length ≤ (bs.length + 1) / 2
  | [] => by simp
  | [h] => by cases b <;> simp
  | h :: l :: bs => by
    have ih := summedWords_length_le b bs
    simp only [summedWords_pair, List.length_cons]
    omega

/-- Settles O31: both ways of adding have the closed form (`deferredFold_eq`); the bounds are `wideSum_le` and
`summedWords_length_le`. -/
theorem deferredFoldGivesSameSum : Obligations.DeferredFoldGivesSameSum := by
  refine ⟨fun ws => ?same, fun ws hws => ?bits, fun s ck hi => ?words⟩
  case same => rw [deferredFold_eq, foldl_ocAdd_zero_toNat]
  case bits =>
    have hsum := wideSum_le ws
    omega
  case words =>
    have hwords := summedWords_length_le s.params.oddPad (innerBytes s.regs.sport s.regs.dport s.din ck)
    have hdin := hi.din
    have hpmax : s.params.pmax ≤ 65507 := hi.legal
    rw [innerBytes_length] at hwords
    omega

theorem AdderTree.output_toNat (tree : AdderTree) : tree.output.toNat = endAroundFold (wideSum tree.fed) := by
  induction tree with
  | lane w => exact (endAroundFold_of_le (Nat.le_of_lt_succ w.isLt)).symm
  | add l r ihl ihr =>
    rw [AdderTree.output, AdderTree.fed, ocAdd_toNat, ihl, ihr, endAroundFold_add_left, endAroundFold_add_right,
      wideSum_append]

/-- The outputs of trees and the words fed to all of them have the same folded sum. -/
theorem endAroundFold_outputs (cycles : List AdderTree) :
    endAroundFold (wideSum (cycles.map AdderTree.output)) =
      endAroundFold (wideSum (cycles.flatMap AdderTree.fed)) := by
  induction cycles with
  | nil => rfl
  | cons tree cycles ih =>
    rw [List.map_cons, List.flatMap_cons, wideSum_cons, wideSum_append, AdderTree.output_toNat,
      endAroundFold_add_left, ← endAroundFold_add_right, ih, endAroundFold_add_right]

theorem accumulate_toNat (cycles : List AdderTree) :
    (accumulate cycles).toNat = endAroundFold (wideSum (cycles.flatMap AdderTree.fed)) := by
  rw [accumulate, foldl_ocAdd_zero_toNat, endAroundFold_outputs]

/-- What is the folded sum of the summed words, in any order and with idle lanes, is the complement of `cksum`. -/
theorem not_eq_cksum {b : Bool} {bs : List Byte} {idle : Nat} {fed : List Half} {v : Half}
    (hfed : fed.Perm (summedWords b bs ++ List.replicate idle 0x0000)) (hv : v.toNat = endAroundFold (wideSum fed)) :
    ~~~ v = cksum b bs := by
  have hsum : v = foldedSum b bs := by
    apply BitVec.eq_of_toNat_eq
    rw [hv, foldedSum_toNat, wideSum_perm hfed, wideSum_append, wideSum_replicate_zero, Nat.add_zero]
  rw [hsum, cksum]

/-- Settles O32: each organisation puts out the closed form of what its lanes are fed. -/
theorem adderTreesComputeChecksum : Obligations.AdderTreesComputeChecksum := by
  refine fun b bs idle => ⟨fun tree hfed => ⟨?tree, ?wide⟩, fun cycles hfed => ?cycles⟩
  case tree => exact not_eq_cksum hfed tree.output_toNat
  case wide =>
    refine not_eq_cksum hfed ?_
    rw [deferredFold_eq, ofNat_toNat_of_fits (Nat.lt_succ_of_le (endAroundFold_le _))]
  case cycles => exact not_eq_cksum hfed (accumulate_toNat cycles)

/-! ## Zeros, odd last octets and self-verification (R108, R110, R111) -/

theorem wideSum_summedWords_zeros (b : Bool) : ∀ m : Nat, wideSum (summedWords b (List.replicate m 0x00)) = 0
  | 0 => by simp
  | 1 => by cases b <;> rfl
  | m + 2 => by
    rw [List.replicate_succ, List.replicate_succ, summedWords_pair, wideSum_cons, wideSum_summedWords_zeros b m]
    rfl

/-- Settles O33: the sum of zero words is 0. -/
theorem zeroInputChecksum : Obligations.ZeroInputChecksum := fun b =>
  ⟨cksum_eq_ones.2 (wideSum_summedWords_zeros b 0), fun m => cksum_eq_ones.2 (wideSum_summedWords_zeros b m)⟩

/-- The checksum is a function of the summed words (R101). -/
theorem cksum_congr {b : Bool} {x y : List Byte} (h : summedWords b x = summedWords b y) : cksum b x = cksum b y := by
  rw [cksum, foldedSum, h, cksum, foldedSum]

/-- R111: without padding an odd last octet makes no word. -/
theorem summedWords_drop_last {bs : List Byte} (h : bs.length % 2 = 0) (x : Byte) :
    summedWords false (bs ++ [x]) = summedWords false bs := by
  simp [summedWords_append false bs [x] h]

/-- R111: with padding it is the high octet of a word. -/
theorem summedWords_pad_last {bs : List Byte} (h : bs.length % 2 = 0) (x : Byte) :
    summedWords true (bs ++ [x]) = summedWords true (bs ++ [x, 0x00]) := by
  simp [summedWords_append true bs _ h]

/-- Settles O34: the words with and without the last octet. -/
theorem oddLastOctetDroppedOrPadded : Obligations.OddLastOctetDroppedOrPadded := by
  intro bs x y h
  exact ⟨cksum_congr (summedWords_drop_last h x),
    cksum_congr ((summedWords_drop_last h x).trans (summedWords_drop_last h y).symm),
    cksum_congr (summedWords_pad_last h x), cksum_eq_ones.2 (by simp)⟩

/-- A place of a word in a sequence cuts the sequence into the octets before it, the word, and those after it. -/
theorem eq_append_be16 {bs : List Byte} {j : Nat} {h l : Byte} (hh : bs[2 * j]? = some h)
    (hl : bs[2 * j + 1]? = some l) :
    bs = bs.take (2 * j) ++ (be16 (wordOf h l) ++ bs.drop (2 * j + 2)) := by
  obtain ⟨hj, rfl⟩ := List.getElem?_eq_some_iff.1 hh
  obtain ⟨hj', rfl⟩ := List.getElem?_eq_some_iff.1 hl
  calc bs = bs.take (2 * j) ++ bs.drop (2 * j) := (List.take_append_drop ..).symm
    _ = bs.take (2 * j) ++ bs[2 * j] :: bs[2 * j + 1] :: bs.drop (2 * j + 2) := by
      rw [List.drop_eq_getElem_cons hj, List.drop_eq_getElem_cons hj']
    _ = _ := by rw [be16_wordOf]; rfl

theorem withWordAt_append {pre post : List Byte} {j : Nat} (hpre : pre.length = 2 * j) (v c : Half) :
    withWordAt (pre ++ (be16 v ++ post)) j c = pre ++ (be16 c ++ post) := by
  simp [withWordAt, be16, hpre]

/-- A word at an even place adds its value to the sum of all (R56). -/
theorem wideSum_summedWords_insert (b : Bool) {pre : List Byte} (hpre : pre.length % 2 = 0) (v : Half)
    (post : List Byte) :
    wideSum (summedWords b (pre ++ (be16 v ++ post))) =
      v.toNat + (wideSum (summedWords b pre) + wideSum (summedWords b post)) := by
  rw [summedWords_append b _ _ hpre, summedWords_be16, wideSum_append, wideSum_cons]
  omega

/-- Settles O35: the zeroed word adds nothing and the checksum adds what the folded sum lacks to 65535. The two octets at
the place exist, so they are among those that are summed. -/
theorem checksumVerifiesItself : Obligations.ChecksumVerifiesItself := by
  intro b bs j _ hh hl
  have hcut := eq_append_be16 hh hl
  have hpre : (bs.take (2 * j)).length = 2 * j :=
    List.length_take_of_le (Nat.le_of_lt (List.getElem?_eq_some_iff.1 hh).1)
  have heven : (bs.take (2 * j)).length % 2 = 0 := by omega
  have hck := cksum_toNat b bs
  generalize cksum b bs = c at hck ⊢
  rw [foldedSum_toNat, endAroundFold, hcut, wideSum_summedWords_insert b heven] at hck
  rw [hcut, withWordAt_append hpre, cksum_eq_zero, wideSum_summedWords_insert b heven]
  have hzero : (wordOf 0x00 0x00).toNat = 0 := rfl
  rw [hzero] at hck
  split at hck <;> omega

/-! ## The order of octets and of words (R109, R115) -/

theorem cksum_octetsOf (b : Bool) (ws : List Half) : cksum b (octetsOf ws) = ~~~ ws.foldl ocAdd 0x0000 := by
  rw [cksum, foldedSum, summedWords_octetsOf]

/-- A sequence of even length is the octets of a list of words (R53). -/
theorem exists_eq_octetsOf : ∀ bs : List Byte, bs.length % 2 = 0 → ∃ ws, bs = octetsOf ws
  | [], _ => ⟨[], rfl⟩
  | [_], h => by simp at h
  | a :: c :: bs, h => by
    obtain ⟨ws, rfl⟩ := exists_eq_octetsOf bs (by simp only [List.length_cons] at h; omega)
    exact ⟨wordOf a c :: ws, by rw [octetsOf, octetsOf, List.flatMap_cons, be16_wordOf]; rfl⟩

/-- A word with its two octets exchanged. -/
def swapOctets (v : Half) : Half := wordOf (loOctet v) (hiOctet v)

theorem swapOctets_toNat (v : Half) : (swapOctets v).toNat = v.toNat % 256 * 256 + v.toNat / 256 := by
  rw [swapOctets, wordOf_toNat, loOctet_toNat, hiOctet_toNat]

theorem be16_swapOctets (v : Half) : be16 (swapOctets v) = [loOctet v, hiOctet v] := be16_wordOf ..

/-- The carry out of either octet goes into the other one, so exchanging octets commutes with `oc_add`. -/
theorem swapOctets_ocAdd (a b : Half) : swapOctets (ocAdd a b) = ocAdd (swapOctets a) (swapOctets b) := by
  have ha := a.isLt
  have hb := b.isLt
  apply BitVec.eq_of_toNat_eq
  rw [swapOctets_toNat, ocAddFoldsTheCarry a b, ocAddFoldsTheCarry (swapOctets a), swapOctets_toNat, swapOctets_toNat]
  split <;> split <;> omega

theorem foldl_ocAdd_map_swapOctets (ws : List Half) :
    (ws.map swapOctets).foldl ocAdd 0x0000 = swapOctets (ws.foldl ocAdd 0x0000) := by
  have hzero : swapOctets 0x0000 = 0x0000 := by decide
  rw [List.foldl_map]
  conv => lhs; rw [← hzero]
  exact List.foldl_hom swapOctets fun a b => (swapOctets_ocAdd a b).symm

theorem swapOctets_not (v : Half) : swapOctets (~~~ v) = ~~~ swapOctets v := by
  have hv := v.isLt
  apply BitVec.eq_of_toNat_eq
  rw [BitVec.toNat_not, swapOctets_toNat, swapOctets_toNat, BitVec.toNat_not]
  omega

theorem swapOctets_eq_self {v : Half} : swapOctets v = v ↔ hiOctet v = loOctet v := by
  conv => lhs; rhs; rw [← wordOf_octets v]
  exact append_eq_append.trans ⟨fun ⟨_, h⟩ => h, fun h => ⟨h.symm, h⟩⟩

theorem exchangeOctets_octetsOf (ws : List Half) : exchangeOctets (octetsOf ws) = octetsOf (ws.map swapOctets) := by
  induction ws with
  | nil => rfl
  | cons v ws ih =>
    rw [octetsOf, octetsOf, List.map_cons, List.flatMap_cons, List.flatMap_cons, be16_swapOctets, ← octetsOf,
      ← octetsOf, ← ih]
    rfl

theorem octetsOf_reverse (ws : List Half) : (octetsOf ws).reverse = octetsOf (ws.map swapOctets).reverse := by
  induction ws with
  | nil => rfl
  | cons v ws ih =>
    rw [octetsOf, List.flatMap_cons, List.reverse_append, ← octetsOf, ih, List.map_cons, List.reverse_cons, octetsOf,
      octetsOf, List.flatMap_append, List.flatMap_singleton, be16_swapOctets]
    rfl

/-- R109 for the octets of words with their octets exchanged, in any order. -/
theorem cksum_octetsOf_swapped (b : Bool) {ws vs : List Half} (h : vs.Perm (ws.map swapOctets)) :
    cksum b (octetsOf vs) = swapOctets (cksum b (octetsOf ws)) := by
  rw [cksum_octetsOf, cksum_octetsOf, foldl_ocAdd_perm h, foldl_ocAdd_map_swapOctets, swapOctets_not]

/-- Settles O36: both sequences are the octets of the words with their octets exchanged, in some order. -/
theorem octetExchangeExchangesChecksum : Obligations.OctetExchangeExchangesChecksum := by
  intro b bs heven
  obtain ⟨ws, rfl⟩ := exists_eq_octetsOf bs heven
  have hexchange : cksum b (exchangeOctets (octetsOf ws)) = swapOctets (cksum b (octetsOf ws)) := by
    rw [exchangeOctets_octetsOf]
    exact cksum_octetsOf_swapped b (.refl _)
  have hreverse : cksum b (octetsOf ws).reverse = swapOctets (cksum b (octetsOf ws)) := by
    rw [octetsOf_reverse]
    exact cksum_octetsOf_swapped b (List.reverse_perm _)
  exact ⟨hexchange, hreverse, by rw [hexchange]; exact not_congr swapOctets_eq_self⟩

/-- Settles O37: the law by `foldl_ocAdd_perm`, the examples by evaluation. -/
theorem pairOrderDoesNotMatter : Obligations.PairOrderDoesNotMatter := by
  refine ⟨fun b x y h => ?_, by decide, by decide, by decide⟩
  rw [cksum_octetsOf, cksum_octetsOf, foldl_ocAdd_perm h]

/-! ## The command `CKSUM` (R102) -/

/-- A command that ends in `respond` and leaves STATUS alone ends OK (R76). -/
theorem endsOk_of_respond (v : Half) {s u : State} (herr : u.err = s.err) (hecode : u.ecode = s.ecode) :
    EndsOk v s (u.withPort (.answering (okWord v))) := ⟨rfl, herr, hecode⟩

/-- Settles O27: the meaning of `CKSUM` is `respond`, from the state as it is. -/
theorem cksumRespondsChecksumOfDin : Obligations.CksumRespondsChecksumOfDin := fun _ =>
  ⟨rfl, _, rfl, endsOk_of_respond _ rfl rfl, rfl, rfl, rfl, ⟨rfl, rfl, rfl, rfl⟩⟩

end Sys2Proof.Machine

namespace Sys2Proof.Machine

/-! ## Every built header verifies (41_header_builder.md R129) -/

/-- A written word is among the octets that are summed whenever it lies in the sequence: only a last octet of odd number
can be dropped (R108). -/
theorem lt_summedOctets (b : Bool) {j n : Nat} (h : 2 * j + 1 < n) : 2 * j + 1 < summedOctets b n := by
  unfold summedOctets
  split <;> omega

/-- Writing the word at `2j`, `2j+1` changes no other octet. -/
theorem withWordAt_getElem?_ne (bs : List Byte) (c : Half) {j k : Nat} (hhi : k ≠ 2 * j) (hlo : k ≠ 2 * j + 1) :
    (withWordAt bs j c)[k]? = bs[k]? := by
  rw [withWordAt, List.getElem?_set_ne hlo.symm, List.getElem?_set_ne hhi.symm]

section
variable (p : Params) (following : Nat) (ttl proto : Byte) (src dst : Word) (sp dp : Half) (pay : List Byte)

/-- The checksum field of the outer header is its word W5 (R81), and nothing else depends on it. -/
theorem buildOuter_eq_withWordAt :
    buildOuter p following ttl proto src dst =
      withWordAt (outerBytes p following ttl proto src dst 0x0000) 5
        (cksum p.oddPad (outerBytes p following ttl proto src dst 0x0000)) := rfl

/-- The checksum field of the inner header is its word at the octets 6 and 7 (R82), and nothing else depends on it. -/
theorem buildInner_eq_withWordAt :
    buildInner p sp dp pay =
      withWordAt (innerBytes sp dp pay 0x0000) 3 (cksum p.oddPad (innerBytes sp dp pay 0x0000)) := rfl

theorem cksum_buildOuter : cksum p.oddPad (buildOuter p following ttl proto src dst) = 0x0000 := by
  rw [buildOuter_eq_withWordAt]
  refine checksumVerifiesItself _ _ 5 (lt_summedOctets _ ?_) rfl rfl
  rw [outerBytes_length]
  decide

theorem cksum_buildInner : cksum p.oddPad (buildInner p sp dp pay) = 0x0000 := by
  rw [buildInner_eq_withWordAt]
  refine checksumVerifiesItself _ _ 3 (lt_summedOctets _ ?_) rfl rfl
  rw [innerBytes_length]
  omega

theorem buildFrame_take :
    (buildFrame p ttl proto src dst sp dp pay).take 20 = buildOuter p (8 + pay.length) ttl proto src dst := by
  rw [buildFrame_eq_append]
  exact List.take_left' (outerBytes_length ..)

theorem buildFrame_drop : (buildFrame p ttl proto src dst sp dp pay).drop 20 = buildInner p sp dp pay := by
  rw [buildFrame_eq_append]
  exact List.drop_left' (outerBytes_length ..)

end

/-- Settles O43: a header is its zeroed layout with the checksum written in its place, so it verifies by the law of R108
(`checksumVerifiesItself`), and the frame's two parts are such headers. -/
theorem builtHeadersVerify : Obligations.BuiltHeadersVerify := by
  intro p following ttl proto src dst sp dp pay
  refine ⟨cksum_buildOuter .., cksum_buildInner .., ?_, ?_, fun k hhi hlo => ?_, fun k hhi hlo => ?_⟩
  · rw [buildFrame_take, cksum_buildOuter]
  · rw [buildFrame_drop, cksum_buildInner]
  · rw [buildOuter_eq_withWordAt, withWordAt_getElem?_ne _ _ hhi hlo]
  · rw [buildInner_eq_withWordAt, withWordAt_getElem?_ne _ _ hhi hlo]

/-! ## The commands `BLD.OUTER` and `BLD.INNER` (41_header_builder.md R122, R125) -/

/-- A word with a low field `y` is the word with that field 0, or'ed with `y` (R73). -/
theorem append_eq_or_setWidth {m n : Nat} (x : BitVec m) (y : BitVec n) :
    x ++ y = (x ++ (0 : BitVec n)) ||| y.setWidth (m + n) := by
  simp [BitVec.append_def, BitVec.setWidth'_eq]

/-- What a build does when it ends OK (R13, R35): OUT is replaced, and nothing else but the port changes. -/
theorem respond_withOut (v : Half) (bs : List Byte) (s : State) :
    ∃ t, respond v (s.withOut bs) = .next t ∧ EndsOk v s t ∧ t.regs = s.regs ∧ t.din = s.din ∧ SameOutside s t ∧
      t.out = bs :=
  ⟨_, rfl, endsOk_of_respond v rfl rfl, rfl, rfl, ⟨rfl, rfl, rfl, rfl⟩, rfl⟩

/-- Settles O38, by whether the total length fits its 16-bit field. -/
theorem bldOuterBuildsOuterHeader : Obligations.BldOuterBuildsOuterHeader := by
  intro imm16 s
  refine ⟨append_eq_or_setWidth ((0x20 : Byte) ++ (0 : Byte)) imm16, ?_⟩
  rcases Nat.lt_or_ge 65535 (20 + imm16.toNat) with hlong | hfits
  · obtain ⟨t, ht, herr⟩ := raise_endsInError .eLen s
    exact ⟨t, (exec_bldOuter_eLen hlong s).trans ht, fun _ => herr, fun hfits => absurd hlong (Nat.not_lt.2 hfits)⟩
  · obtain ⟨t, ht, hok, hregs, hdin, houtside, hout⟩ := respond_withOut 20 (outerOf s imm16.toNat) s
    exact ⟨t, (exec_bldOuter hfits s).trans ht, fun hlong => absurd hlong (Nat.not_lt.2 hfits),
      fun _ => ⟨hok, hregs, hdin, houtside, by rw [hout, outerOf_length], hout⟩⟩

/-- The frame of any payload in DIN has a total length of 16 bits (R8, R38 (a)). -/
theorem State.Inv.frame_fits {s : State} (hi : s.Inv) : 28 + s.din.length ≤ 65535 := by
  have hpmax : s.params.pmax ≤ 65507 := hi.legal
  have hdin := hi.din
  omega

/-- Settles O39: the length fits its 16-bit response in every state with the invariant. -/
theorem bldInnerBuildsInnerHeader : Obligations.BldInnerBuildsInnerHeader := by
  intro s hi
  have hfits := hi.frame_fits
  obtain ⟨t, ht, hok, hregs, hdin, houtside, hout⟩ := respond_withOut (lengthHalf (8 + s.din.length)) (innerOf s) s
  exact ⟨rfl, t, _, ht, hok, lengthHalf_toNat (by omega), hregs, hdin, houtside, by rw [hout, innerOf_length], hout⟩

end Sys2Proof.Machine

namespace Sys2Proof.Machine

/-! ## The frame constructor and `BLD.FRAME` (42_frame_constructor.md R140 to R143) -/

/-- The two octets of a serialized length, read high octet first, are that length (R53). -/
theorem lengthHalf_octets_toNat {n : Nat} (h : n < 65536) :
    (hiOctet (lengthHalf n)).toNat * 256 + (loOctet (lengthHalf n)).toNat = n := by
  rw [← wordOf_toNat, wordOf_octets, lengthHalf_toNat h]

section
variable (p : Params) (ttl proto : Byte) (src dst : Word) (sp dp : Half) (pay : List Byte)

theorem buildOuter_length (following : Nat) : (buildOuter p following ttl proto src dst).length = 20 :=
  outerBytes_length ..

theorem buildFrame_length : (buildFrame p ttl proto src dst sp dp pay).length = 20 + (8 + pay.length) := by
  rw [buildFrame_eq_append, List.length_append, buildOuter_length, buildInner_length]

/-- The first 20 octets of the frame are the outer header's (R83). -/
theorem buildFrame_getElem?_outer {k : Nat} (h : k < 20) :
    (buildFrame p ttl proto src dst sp dp pay)[k]? = (buildOuter p (8 + pay.length) ttl proto src dst)[k]? := by
  rw [← buildFrame_take p ttl proto src dst sp dp pay, List.getElem?_take_of_lt h]

/-- The frame's octets from 20 on are the inner result's (R83). -/
theorem buildFrame_getElem?_inner (k : Nat) :
    (buildFrame p ttl proto src dst sp dp pay)[20 + k]? = (buildInner p sp dp pay)[k]? := by
  rw [← buildFrame_drop p ttl proto src dst sp dp pay, List.getElem?_drop]

end

/-- Settles O44. The length fields are the octets 2 and 3 of the outer header and 4 and 5 of the inner one, and both
lengths fit 16 bits. -/
theorem frameLengthsCoherent : Obligations.FrameLengthsCoherent := by
  intro p ttl proto src dst sp dp pay hfits
  have htotal := lengthHalf_octets_toNat (n := 20 + (8 + pay.length)) (by omega)
  have hinner := lengthHalf_octets_toNat (n := 8 + pay.length) (by omega)
  refine ⟨(buildFrame_length ..).trans (Nat.add_assoc ..).symm, hiOctet (lengthHalf (20 + (8 + pay.length))),
    loOctet (lengthHalf (20 + (8 + pay.length))), hiOctet (lengthHalf (8 + pay.length)),
    loOctet (lengthHalf (8 + pay.length)), ?_, ?_, ?_, ?_, by rw [htotal, Nat.add_assoc], hinner,
    by rw [htotal, hinner]⟩
  · exact buildFrame_getElem?_outer (k := 2) (h := by decide) ..
  · exact buildFrame_getElem?_outer (k := 3) (h := by decide) ..
  · exact buildFrame_getElem?_inner (k := 4) ..
  · exact buildFrame_getElem?_inner (k := 5) ..

/-- Settles O40: the frame's length fits the 16-bit response in every state with the invariant. -/
theorem bldFrameBuildsFrame : Obligations.BldFrameBuildsFrame := by
  intro s hi
  have hfits := hi.frame_fits
  obtain ⟨t, ht, hok, hregs, hdin, houtside, hout⟩ := respond_withOut (lengthHalf (28 + s.din.length)) (frameOf s) s
  exact ⟨rfl, t, _, ht, hok, lengthHalf_toNat (by omega), hregs, hdin, houtside, by rw [hout, frameOf_length], hout⟩

/-- The frame of the registers' values and DIN, in its two parts (R143). -/
theorem frameOf_eq_append (s : State) : frameOf s = outerOf s (8 + s.din.length) ++ innerOf s :=
  buildFrame_eq_append ..

/-- Settles O45. Under the invariant `8 + DLEN` is its own 16-bit operand and `BLD.OUTER` does not raise `E_LEN`; the
rest is the frame's two parts. -/
theorem frameIsOuterThenInner : Obligations.FrameIsOuterThenInner := by
  intro s hi
  have hfits := hi.frame_fits
  have himm : (BitVec.ofNat 16 (8 + s.din.length)).toNat = 8 + s.din.length := ofNat_toNat_of_fits (by omega)
  have houter := exec_bldOuter (imm16 := BitVec.ofNat 16 (8 + s.din.length)) (by omega) s
  rw [himm] at houter
  exact ⟨_, _, _, rfl, houter, rfl, frameOf_eq_append s⟩

end Sys2Proof.Machine

namespace Sys2Proof.Machine

/-! ## How a command ends, and what it leaves unchanged (R13, R175) -/

/-- What a command does that only answers: nothing but the port changes. -/
theorem respond_frame (v : Half) (s : State) :
    ∃ t, respond v s = .next t ∧ EndsOk v s t ∧ t.regs = s.regs ∧ t.din = s.din ∧ t.out = s.out ∧ SameOutside s t :=
  ⟨_, rfl, endsOk_of_respond v rfl rfl, rfl, rfl, rfl, ⟨rfl, rfl, rfl, rfl⟩⟩

/-- What a command does that ends OK with a new DIN: nothing else but the port changes. -/
theorem respond_withDin (v : Half) (bs : List Byte) (s : State) :
    ∃ t, respond v (s.withDin bs) = .next t ∧ EndsOk v s t ∧ t.din = bs ∧ t.regs = s.regs ∧ t.out = s.out ∧
      SameOutside s t :=
  ⟨_, rfl, endsOk_of_respond v rfl rfl, rfl, rfl, rfl, ⟨rfl, rfl, rfl, rfl⟩⟩

/-- What a command does that ends OK with new registers: nothing else but the port changes. -/
theorem respond_withRegs (v : Half) (g : Regs) (s : State) :
    ∃ t, respond v (s.withRegs g) = .next t ∧ EndsOk v s t ∧ t.regs = g ∧ t.din = s.din ∧ t.out = s.out ∧
      SameOutside s t :=
  ⟨_, rfl, endsOk_of_respond v rfl rfl, rfl, rfl, rfl, ⟨rfl, rfl, rfl, rfl⟩⟩

/-- A command with one error condition `C` either raises, or meets what is said of its OK end. -/
theorem endsInError_or_ok {r : Result} {s : State} {C D : Prop} {Q : D → State → Prop} (e : ErrCode) (hD : D ↔ ¬ C)
    (herr : C → r = raise e s) (hok : ∀ h : D, ∃ t, r = .next t ∧ Q h t) :
    ∃ t, r = .next t ∧ (C → EndsInError e.code s t) ∧ ∀ h : D, Q h t := by
  by_cases hc : C
  · obtain ⟨t, ht, hends⟩ := raise_endsInError e s
    exact ⟨t, (herr hc).trans ht, fun _ => hends, fun hd => absurd hc (hD.1 hd)⟩
  · obtain ⟨t, ht, hq⟩ := hok (hD.2 hc)
    exact ⟨t, ht, fun h => absurd h hc, fun _ => hq⟩

/-- Format R with `imm16` = 0 as an or of its fields (R73). -/
theorem formatR_zero_eq_or (op reg : Byte) :
    op ++ reg ++ (0 : Half) = (op ++ (0 : BitVec 24)) ||| (reg.setWidth 32 <<< 16) := by
  have hreg : (reg ++ (0 : Half)).setWidth 32 = reg.setWidth 32 <<< 16 := by
    apply BitVec.eq_of_toNat_eq
    rw [BitVec.toNat_setWidth, append_toNat]
    simp [Nat.shiftLeft_eq]
  calc op ++ reg ++ (0 : Half)
      = op ++ (reg ++ (0 : Half)) := BitVec.append_assoc
    _ = (op ++ (0 : BitVec 24)) ||| (reg ++ (0 : Half)).setWidth 32 := append_eq_or_setWidth ..
    _ = (op ++ (0 : BitVec 24)) ||| (reg.setWidth 32 <<< 16) := by rw [hreg]

/-! ## The register space (10_state.md R21 to R33) -/

/-- No two registers have one index (R21). -/
theorem indexOfReg_injective : Function.Injective indexOfReg := fun q r h =>
  Option.some.inj ((regOfIndex_indexOfReg q).symm.trans ((congrArg regOfIndex h).trans (regOfIndex_indexOfReg r)))

/-- The low octet of a word is the word with its high octet masked (R23). -/
theorem wordOf_zero_loOctet (v : Half) : wordOf 0 (loOctet v) = v &&& 0x00FF := by
  apply BitVec.eq_of_toNat_eq
  rw [wordOf_toNat, loOctet_toNat, BitVec.toNat_and]
  exact (Nat.zero_add _).trans (Nat.and_two_pow_sub_one_eq_mod v.toNat 8).symm

/-- R23: the registers with the indices 0x00 and 0x01, `TTL` and `PROTO`, keep 8 bits. -/
theorem storedValue_eq_ite (r : ParamReg) (v : Half) :
    storedValue r v =
      if indexOfReg (.param r) = 0x00 ∨ indexOfReg (.param r) = 0x01 then v &&& 0x00FF else v := by
  cases r with
  | ttl | proto => exact wordOf_zero_loOctet v
  | srch | srcl | dsth | dstl | sport | dport => rfl

/-- A write changes the one register and no other (R24, R150). -/
theorem Regs.get_set (g : Regs) (r q : ParamReg) (v : Half) :
    (g.set r v).get q = if q = r then storedValue r v else g.get q := by
  cases r <;> cases q <;> rfl

/-- R31: `CAP` reads PMAX, and a legal PMAX fits 16 bits (R8). -/
theorem State.Inv.view_cap {s : State} (hi : s.Inv) : (s.view .cap).toNat = s.params.pmax := by
  have hp : s.params.pmax ≤ 65507 := hi.legal
  exact lengthHalf_toNat (by omega)

/-- R32: `CFG` reads ODD_PAD in its bit 0. -/
theorem State.view_cfg (s : State) : s.view .cfg = if s.params.oddPad then 0x0001 else 0x0000 := by
  show (0 : BitVec 15) ++ BitVec.ofBool s.params.oddPad = _
  cases s.params.oddPad <;> rfl

/-! ## The commands `WRP` and `RDP` (43_host_access.md R150, R151) -/

/-- Settles O20, by whether the index names a parameter register. -/
theorem wrpWritesOneRegister : Obligations.WrpWritesOneRegister := by
  intro reg imm16 s
  have hword : encode (.wrp reg imm16) = 0x01000000 ||| (reg.setWidth 32 <<< 16) ||| imm16.setWidth 32 :=
    (append_eq_or_setWidth _ imm16).trans (congrArg (· ||| _) (formatR_zero_eq_or 0x01 reg))
  refine ⟨hword, endsInError_or_ok .eReg Nat.not_lt.symm (fun hbig => exec_wrp_eReg hbig imm16 s) fun hparam => ?_⟩
  obtain ⟨r, hr⟩ := regOfIndex_param hparam
  obtain rfl := indexOfReg_of_regOfIndex hr
  obtain ⟨t, ht, hok, hregs, hdin, hout, houtside⟩ := respond_withRegs 0x0000 (s.regs.set r imm16) s
  refine ⟨t, (exec_wrp hr imm16 s).trans ht, hok, hdin, hout, houtside, fun q => ?_⟩
  rw [hregs, Regs.get_set, storedValue_eq_ite]
  simp only [indexOfReg_injective.eq_iff, RegName.param.injEq]

/-- Settles O21: the index determines the register that is read, and a view's value is known of each view. -/
theorem rdpRespondsRegisterOrView : Obligations.RdpRespondsRegisterOrView := by
  intro reg s hi
  refine ⟨formatR_zero_eq_or 0x02 reg, endsInError_or_ok .eReg Nat.not_lt.symm (fun hbig => exec_rdp_eReg hbig s)
    fun himpl => ?_⟩
  obtain ⟨r, hr⟩ := regOfIndex_implemented himpl
  obtain rfl := indexOfReg_of_regOfIndex hr
  obtain ⟨t, ht, hok, hregs, hdin, hout, houtside⟩ := respond_frame (s.readReg r) s
  have hread (q : RegName) (hq : indexOfReg r = indexOfReg q) : s.readReg r = s.readReg q :=
    congrArg s.readReg (indexOfReg_injective hq)
  have hreadNat (q : RegName) (hq : indexOfReg r = indexOfReg q) : (s.readReg r).toNat = (s.readReg q).toNat :=
    congrArg BitVec.toNat (hread q hq)
  exact ⟨t, (exec_rdp hr s).trans ht, s.readReg r, hok, hregs, hdin, hout, houtside,
    fun q hq => hread (.param q) hq.symm,
    fun hdlen => (hreadNat (.view .dlen) hdlen).trans hi.view_dlen,
    fun holen => (hreadNat (.view .olen) holen).trans hi.view_olen,
    hread (.view .status),
    fun hcap => (hreadNat (.view .cap) hcap).trans hi.view_cap,
    fun hcfg => (hread (.view .cfg) hcfg).trans s.view_cfg,
    hread (.view .rev)⟩

/-! ## The commands that write DIN (43_host_access.md R152 to R155) -/

/-- Settles O22: `DCLR` is `respond` from the state with DIN empty. -/
theorem dclrEmptiesDin : Obligations.DclrEmptiesDin := fun s => ⟨rfl, respond_withDin 0x0000 [] s⟩

/-- R34: an append ends in `E_OVF`, or appends all its octets and changes nothing else. -/
theorem appendDin_ends (n : Nat) (bs : List Byte) (s : State) :
    ∃ t, appendDin n bs s = .next t ∧
      (s.din.length + n > s.params.pmax → EndsInError 0x03 s t) ∧
      (s.din.length + n ≤ s.params.pmax → EndsOk 0x0000 s t ∧ t.din = s.din ++ bs ∧ t.regs = s.regs ∧
        t.out = s.out ∧ SameOutside s t) := by
  refine endsInError_or_ok .eOvf Nat.not_lt.symm appendDin_eOvf fun hfits => ?_
  rw [appendDin_fits hfits]
  exact respond_withDin 0x0000 (s.din ++ bs) s

/-- Settles O23: `DPUSH` appends one octet (`appendDin_ends`). -/
theorem dpushAppendsOctet : Obligations.DpushAppendsOctet := fun imm8 s =>
  ⟨append_eq_or_setWidth ((0x04 : Byte) ++ (0 : Half)) imm8, appendDin_ends 1 [imm8] s⟩

/-- R154: when both octets fit, `DPUSH2` is the `DPUSH` of the one and then of the other. -/
theorem exec_dpush_dpush {imm16 : Half} {s : State} (h : s.din.length + 2 ≤ s.params.pmax) :
    ∃ u, exec (.dpush (hiOctet imm16)) s = .next u ∧ exec (.dpush (loOctet imm16)) u = exec (.dpush2 imm16) s := by
  refine ⟨_, appendDin_fits (by omega), ?_⟩
  calc appendDin 1 [loOctet imm16] _
      = respond 0x0000 (s.withDin ((s.din ++ [hiOctet imm16]) ++ [loOctet imm16])) :=
        appendDin_fits (by simpa [Nat.add_assoc] using h)
    _ = respond 0x0000 (s.withDin (s.din ++ be16 imm16)) := by rw [List.append_assoc]; rfl
    _ = exec (.dpush2 imm16) s := (appendDin_fits h).symm

/-- R154: at an even DLEN the two octets of `imm16` are one more word that is summed (R53). -/
theorem summedWords_append_be16 (b : Bool) {bs : List Byte} (heven : bs.length % 2 = 0) (v : Half) :
    summedWords b (bs ++ be16 v) = summedWords b bs ++ [v] := by
  rw [summedWords_append b _ _ heven, ← List.append_nil (be16 v), summedWords_be16, summedWords_nil]

/-- Settles O24: `appendDin_ends` of the two octets of `imm16`; then the two lemmas above. -/
theorem dpush2AppendsBothOrNeither : Obligations.Dpush2AppendsBothOrNeither := by
  intro imm16 s
  obtain ⟨t, ht, herr, hok⟩ := appendDin_ends 2 (be16 imm16) s
  refine ⟨append_eq_or_setWidth ((0x05 : Byte) ++ (0 : Byte)) imm16, t, ht, herr, fun hfits => ?_⟩
  obtain ⟨hends, hdin, hregs, hout, houtside⟩ := hok hfits
  obtain ⟨u, hu, htwo⟩ := exec_dpush_dpush (imm16 := imm16) hfits
  exact ⟨hends, hdin, hregs, hout, houtside, ⟨u, hu, htwo.trans ht⟩,
    fun heven b => by rw [hdin, summedWords_append_be16 b heven]⟩

/-- Settles O25: `appendDin_ends` of `imm16` zeros, whose octets beyond the old DIN are those of a `replicate`. -/
theorem dzeroAppendsZeros : Obligations.DzeroAppendsZeros := by
  intro imm16 s
  obtain ⟨t, ht, herr, hok⟩ := appendDin_ends imm16.toNat (List.replicate imm16.toNat 0x00) s
  refine ⟨append_eq_or_setWidth ((0x06 : Byte) ++ (0 : Byte)) imm16, t, ht, herr, fun hfits => ?_⟩
  obtain ⟨hends, hdin, hregs, hout, houtside⟩ := hok hfits
  have hlength : t.din.length = s.din.length + imm16.toNat := by
    rw [hdin, List.length_append, List.length_replicate]
  refine ⟨hends, hregs, hout, houtside, hlength, ⟨_, hdin.symm⟩, fun k hold hnew => ?_⟩
  rw [hdin, List.getElem?_append_right hold, List.getElem?_replicate_of_lt (by omega)]

/-! ## The command `RDO` (43_host_access.md R156) -/

/-- Settles O26, by whether the index lies in OUT. -/
theorem rdoRespondsOctet : Obligations.RdoRespondsOctet := by
  intro imm16 s
  refine ⟨append_eq_or_setWidth ((0x07 : Byte) ++ (0 : Byte)) imm16,
    endsInError_or_ok .eRange Nat.not_le.symm exec_rdo_eRange fun hin => ?_⟩
  rw [exec_rdo hin]
  exact respond_frame (wordOf 0x00 s.out[imm16.toNat]) s

end Sys2Proof.Machine

namespace Sys2Proof.Machine

/-! ## The edges that the model refuses (70_reset_and_hazards.md R170, R202, R204) -/

/-- R202: a host breaks its offer when a word is on offer and the edge does not offer that word. -/
theorem State.offerKept_eq_false {s : State} {e : Edge} :
    s.offerKept e = false ↔ ∃ w, s.offer = some w ∧ ¬ (e.cmdValid = true ∧ e.cmdWord = w) := by
  cases ho : s.offer <;> simp [State.offerKept, Edge.offered, ho]

/-- R204: an edge without reset at which the host keeps its word goes on, wherever the ports stand. -/
theorem runEdge_next (e : Edge) (s : State) : ∃ t, runEdge e s = .next t := by
  cases hp : s.port with
  | ready =>
    cases hv : e.cmdValid with
    | true =>
      obtain ⟨t, -, -, ht⟩ := acceptEdge_next e s
      exact ⟨t.delayed e.stall, by simp only [runEdge, hp, hv, if_true, ht]⟩
    | false => exact ⟨s.withOffer none, by simp [runEdge, hp, hv]⟩
  | working n rsp => cases n <;> simp [runEdge, hp]
  | held | answering => simp [runEdge, hp]

/-- Every edge is a reset, the work of `runEdge`, or refused (R190, R202). -/
theorem step_of_edge {s : State} {e : Edge} {rest : List Edge} (he : s.edges = e :: rest) :
    step s =
      if e.rst then .next (resetEdge e (s.withEdges rest))
      else if s.offerKept e then runEdge e (s.withEdges rest) else .refused .unstableOffer := by
  simp only [step, clock, he]
  rfl

/-- The model refuses the edges without reset at which the host breaks its offer, and no others (log 10). -/
theorem step_eq_refused {s : State} {r : Refusal} :
    step s = .refused r ↔
      r = .unstableOffer ∧ ∃ e rest, s.edges = e :: rest ∧ e.rst = false ∧ s.offerKept e = false := by
  cases he : s.edges with
  | nil => simp [step_of_no_edges he]
  | cons e rest =>
    rw [step_of_edge he]
    cases hrst : e.rst with
    | true => simp [hrst]
    | false =>
      cases hkept : s.offerKept e with
      | true =>
        obtain ⟨t, ht⟩ := runEdge_next e (s.withEdges rest)
        simp [ht, hkept]
      | false => simp [hrst, hkept, @eq_comm _ r]

/-- Settles O17: `step_eq_refused`, with the broken offer written out; no `Fault` exists. -/
theorem stepRefusesOnlyUnstableOffer : Obligations.StepRefusesOnlyUnstableOffer := by
  refine fun s => ⟨nofun, fun r h => (step_eq_refused.1 h).1, ?_⟩
  simp only [step_eq_refused, State.offerKept_eq_false, true_and, exists_and_left]

/-! ## What a command does whatever STATUS holds (60_exceptions.md R172, R177) -/

/-- The same unit after other errors: ERR and ECODE alone are replaced. -/
def State.withStatus (s : State) (err : Bool) (ecode : Byte) : State := { s with err := err, ecode := ecode }

/-- How a command ends, with its status, from all states that are `s` but for STATUS: it raises one error, or it writes
and answers the same, or it is `RDP STATUS`. -/
inductive EndsWithStatus (s : State) : Instr → Byte → Prop where
  | error {i : Instr} (e : ErrCode)
      (h : ∀ err ecode, exec i (s.withStatus err ecode) = raise e (s.withStatus err ecode)) : EndsWithStatus s i e.code
  | ok {i : Instr} (v : Half) (u : State)
      (h : ∀ err ecode, exec i (s.withStatus err ecode) = respond v (u.withStatus err ecode)) : EndsWithStatus s i 0x00
  | readsStatus : EndsWithStatus s (.rdp 0x0A) 0x00

/-- R29: no register but STATUS shows ERR and ECODE. -/
theorem State.readReg_withStatus {r : RegName} (h : r ≠ .view .status) (s : State) (err : Bool) (ecode : Byte) :
    (s.withStatus err ecode).readReg r = s.readReg r := by
  cases r with
  | param => rfl
  | view v =>
    cases v with
    | status => exact absurd rfl h
    | dlen | olen | cap | cfg | rev => rfl

/-- R153 to R155: an append looks at DIN and PMAX alone. -/
theorem endsWithStatus_append {i : Instr} {n : Nat} {bs : List Byte} (hi : exec i = appendDin n bs) (s : State) :
    EndsWithStatus s i (if s.params.pmax < s.din.length + n then 0x03 else 0x00) :=
  iteInduction
    (fun hover => .error .eOvf fun _ _ => hi ▸ appendDin_eOvf hover)
    (fun hfits => .ok 0x0000 (s.withDin (s.din ++ bs)) fun _ _ => hi ▸ appendDin_fits (Nat.not_lt.1 hfits))

/-- R172: every command ends in the status of its one condition, which does not depend on STATUS. -/
theorem exec_endsWithStatus (i : Instr) (s : State) : EndsWithStatus s i (expectedStatus s i) := by
  cases i with
  | wrp reg imm16 =>
    refine iteInduction (fun hbig => .error .eReg fun _ _ => exec_wrp_eReg hbig imm16 _) fun hparam => ?_
    obtain ⟨r, hr⟩ := regOfIndex_param (Nat.not_lt.1 hparam)
    exact .ok 0x0000 (s.withRegs (s.regs.set r imm16)) fun _ _ => exec_wrp hr imm16 _
  | rdp reg =>
    refine iteInduction (fun hbig => .error .eReg fun _ _ => exec_rdp_eReg hbig _) fun himpl => ?_
    obtain ⟨r, hr⟩ := regOfIndex_implemented (Nat.not_lt.1 himpl)
    obtain rfl | hstatus := eq_or_ne r (.view .status)
    · obtain rfl : 0x0A = reg := indexOfReg_of_regOfIndex hr
      exact .readsStatus
    · exact .ok (s.readReg r) s fun _ _ => by rw [exec_rdp hr, State.readReg_withStatus hstatus]
  | dclr => exact .ok 0x0000 (s.withDin []) fun _ _ => rfl
  | dpush imm8 => exact endsWithStatus_append rfl s
  | dpush2 imm16 => exact endsWithStatus_append rfl s
  | dzero imm16 => exact endsWithStatus_append rfl s
  | rdo imm16 =>
    refine iteInduction (fun hout => .error .eRange fun _ _ => exec_rdo_eRange hout) fun hin => ?_
    have hlt : imm16.toNat < s.out.length := Nat.not_le.1 hin
    exact .ok (wordOf 0x00 s.out[imm16.toNat]) s fun err ecode => exec_rdo (s := s.withStatus err ecode) hlt
  | cksum => exact .ok (cksum s.params.oddPad s.din) s fun _ _ => rfl
  | bldOuter imm16 =>
    exact iteInduction (fun hlong => .error .eLen fun _ _ => exec_bldOuter_eLen (by omega) _)
      (fun hfits => .ok 20 (s.withOut (outerOf s imm16.toNat)) fun _ _ => exec_bldOuter (by omega) _)
  | bldInner => exact .ok (lengthHalf (8 + s.din.length)) (s.withOut (innerOf s)) fun _ _ => rfl
  | bldFrame => exact .ok (lengthHalf (28 + s.din.length)) (s.withOut (frameOf s)) fun _ _ => rfl

/-- Settles O50: each end of `EndsWithStatus`, from the STATUS of the state and from the other one. -/
theorem earlierErrorsDoNotMatter : Obligations.EarlierErrorsDoNotMatter := by
  intro i s err ecode
  have hends := exec_endsWithStatus i s
  generalize expectedStatus s i = c at hends
  cases hends with
  | error e h => exact ⟨_, _, h s.err s.ecode, h err ecode, rfl, rfl, rfl, fun _ => rfl⟩
  | ok v u h => exact ⟨_, _, h s.err s.ecode, h err ecode, rfl, rfl, rfl, fun _ => rfl⟩
  | readsStatus => exact ⟨_, _, rfl, rfl, rfl, rfl, rfl, absurd rfl⟩

/-! ## The response word (30_encoding.md R76, 60_exceptions.md R174) -/

/-- R76: bits 23:16 of an OK response are 0. -/
theorem okWord_reserved (v : Half) : (okWord v).extractLsb' 16 8 = 0x00 := by
  have := v.isLt
  apply BitVec.eq_of_toNat_eq
  simp only [okWord, extract_toNat, append_toNat, BitVec.ofNat_eq_ofNat, BitVec.toNat_ofNat]
  omega

/-- R76, R174: an error response is its code and 24 bits of 0. -/
theorem errorWord_reserved_data (e : ErrCode) :
    (errorWord e).extractLsb' 16 8 = 0x00 ∧ (errorWord e).extractLsb' 0 16 = 0x0000 := by
  cases e <;> decide

/-- Settles O46: the response of each end of `EndsWithStatus`. -/
theorem everyCommandAnswersItsStatus : Obligations.EveryCommandAnswersItsStatus := by
  intro i s
  have hends := exec_endsWithStatus i s
  generalize expectedStatus s i = c at hends ⊢
  cases hends with
  | error e h =>
    obtain ⟨hreserved, hdata⟩ := errorWord_reserved_data e
    exact ⟨_, errorWord e, h s.err s.ecode, rfl, statusOf_errorWord e, hreserved, fun _ => hdata⟩
  | ok v u h => exact ⟨_, okWord v, h s.err s.ecode, rfl, statusOf_okWord v, okWord_reserved v, absurd rfl⟩
  | readsStatus =>
    exact ⟨_, okWord (statusWord s), rfl, rfl, statusOf_okWord _, okWord_reserved _, absurd rfl⟩

/-! ## What an error changes (60_exceptions.md R175) -/

/-- R175, of everything that a command or an illegal word can do: its response's status tells whether STATUS changes,
and in error nothing else does. -/
theorem Did.answers_status {s t : State} (h : Did s t) :
    ∃ rsp, t.port = .answering rsp ∧ (statusOf rsp ≠ 0x00 → EndsInError (statusOf rsp) s t) ∧
      (statusOf rsp = 0x00 → t.err = s.err ∧ t.ecode = s.ecode ∧ SameOutside s t) := by
  have houtside := h.sameOutside
  cases h with
  | erred e =>
    obtain ⟨t, ht, hends⟩ := raise_endsInError e s
    obtain rfl := raise_eq_next.1 ht
    exact ⟨errorWord e, rfl, fun _ => statusOf_errorWord e ▸ hends,
      fun hok => absurd (statusOf_errorWord e ▸ hok) e.code_ne_zero⟩
  | read w | wroteRegister _ _ w | wroteDin _ w | wroteOut _ w =>
    exact ⟨okWord w, rfl, absurd (statusOf_okWord w), fun _ => ⟨rfl, rfl, houtside⟩⟩

/-- Settles O47, by `Did.answers_status`. -/
theorem errorChangesOnlyStatus : Obligations.ErrorChangesOnlyStatus := by
  intro w s
  obtain ⟨t, ht, hdid⟩ := runWord_did w s
  obtain ⟨rsp, hanswer⟩ := hdid.answers_status
  exact ⟨t, rsp, ht, hanswer⟩

end Sys2Proof.Machine

namespace Sys2Proof.Machine

/-! ## Runs of words, and reset (70_reset_and_hazards.md R190, R191, R203) -/

/-- R29: the fields of STATUS are ECODE, seven bits of 0, and ERR. -/
theorem statusWord_eq_zero {s : State} : statusWord s = 0x0000 ↔ s.ecode = 0x00 ∧ s.err = false := by
  refine (append_eq_append (y := (0x00 : Byte) ++ (0 : BitVec 7)) (v := BitVec.ofBool false)).trans ?_
  rw [append_eq_append, BitVec.ofBool_eq_iff_eq, eq_self, and_true]

/-- Under R38 (e), STATUS reads 0x0000 exactly if ERR = 0. -/
theorem State.Inv.errorFree_iff {s : State} (hi : s.Inv) : s.ErrorFree ↔ s.err = false := by
  rw [State.ErrorFree, statusWord_eq_zero, ← hi.status, and_self]

/-- R6, R72, R175: a transaction of any word completes with one response, keeps the invariant, and leaves ERR = 0 exactly
if it was 0 and the response's status is 0x00. -/
theorem transaction_answers (w : Word) (s : State) :
    ∃ t rsp, transaction w s = .next t ∧ (s.Inv → t.Inv) ∧ t.delivered = s.delivered ++ [rsp] ∧
      (t.err = false ↔ s.err = false ∧ statusOf rsp = 0x00) := by
  obtain ⟨u, hu, hdid⟩ := runWord_did w s
  obtain ⟨rsp, hport, herror, hok⟩ := hdid.answers_status
  refine ⟨u.takeResponse, rsp, by simp only [transaction, hu], fun hi => (hdid.inv hi).inWorld .., ?_, ?_⟩
  · simp [hport, hdid.sameOutside.delivered, Port.pending]
  · rw [State.takeResponse_err]
    rcases eq_or_ne (statusOf rsp) 0x00 with hstatus | hstatus
    · simp [(hok hstatus).1, hstatus]
    · simp only [(herror hstatus).err, hstatus, and_false, reduceCtorEq]

/-- The run of any words, from a state with the invariant and any STATUS, by induction on the words. -/
theorem runWords_answers (ws : List Word) {s : State} (hi : s.Inv) :
    ∃ t rs, runWords ws s = .next t ∧ t.Inv ∧ t.delivered = s.delivered ++ rs ∧ rs.length = ws.length ∧
      (t.err = false ↔ s.err = false ∧ ∀ r ∈ rs, statusOf r = 0x00) := by
  induction ws generalizing s with
  | nil => exact ⟨s, [], rfl, hi, by simp, rfl, by simp⟩
  | cons w ws ih =>
    obtain ⟨u, rsp, hu, huinv, hudelivered, huerr⟩ := transaction_answers w s
    obtain ⟨t, rs, ht, htinv, htdelivered, hlength, hterr⟩ := ih (huinv hi)
    refine ⟨t, rsp :: rs, by simp only [runWords, hu, ht], htinv, ?_, by simp [hlength], ?_⟩
    · simp [htdelivered, hudelivered]
    · rw [hterr, huerr, List.forall_mem_cons, and_assoc]

/-- Settles O54, by `runWords_answers`: the run begins and ends in states with the invariant, where STATUS = 0x0000 says
ERR = 0. -/
theorem runAnswersEveryWord : Obligations.RunAnswersEveryWord := by
  intro ws s hi hfree
  obtain ⟨t, rs, ht, htinv, hdelivered, hlength, herr⟩ := runWords_answers ws hi
  refine ⟨t, rs, ht, htinv, hdelivered, hlength, ?_⟩
  rw [htinv.errorFree_iff, herr, and_iff_right (hi.errorFree_iff.1 hfree)]

/-- Settles O14: the step is `resetEdge`, whose state has the reset values. -/
theorem resetEdgeAbandonsCommand : Obligations.ResetEdgeAbandonsCommand := by
  intro s e rest he hrst
  refine ⟨resetEdge e (s.withEdges rest), ?_, rfl, Regs.reset_get, rfl, rfl, rfl, rfl, rfl, rfl, rfl, rfl⟩
  rw [step_of_edge he, if_pos hrst]

/-- A held unit does not drive `cmd_ready`, so it accepts nothing (R71, R190). -/
theorem State.accepts_of_held {s : State} (hp : s.port = .held) : s.accepts = none := by
  refine Option.eq_none_iff_forall_ne_some.2 fun w hw => ?_
  obtain ⟨e, rest, -, -, hready, -⟩ := State.accepts_eq_some.1 hw
  simp [hp] at hready

/-- Settles O15: the edge changes the port and the record of the offer alone. -/
theorem firstEdgeAfterResetMakesReady : Obligations.FirstEdgeAfterResetMakesReady := by
  intro s e rest he hrst hp hkept
  refine ⟨((s.withEdges rest).withPort .ready).withOffer e.offered, ?_, rfl, State.accepts_of_held hp, rfl, rfl, rfl,
    rfl, rfl, rfl⟩
  simp [step_of_edge he, hrst, hkept, runEdge, hp]

end Sys2Proof.Machine
